-- ==== Sys2Proof/Config.lean ====
section
/-! DEFINITION. The parameters of the block (00_scope.md R5 to R8). R8 leaves none of them open, and
93_implementation_defined.md leaves no value open, so there is no opaque constant here. -/

namespace Sys2Proof.Config

/-- Bits of an Integer (R5, `W_INT`). -/
abbrev wInt : Nat := 32
/-- Bits of a Byte (R6, `W_BYTE`). -/
abbrev wByte : Nat := 8
/-- Bits of one group (R7, `GROUP_BITS`). -/
abbrev groupBits : Nat := 7
/-- The most bytes ENC emits for one value (R7, `MAX_LEN`). -/
abbrev maxLen : Nat := 5
/-- Bits of a command word (R8, `CMD_WIDTH`). -/
abbrev cmdWidth : Nat := 40
/-- Decoder contexts of one block (R8). -/
abbrev decoderContexts : Nat := 1
/-- Bits of the counters DEC_NVAL and DEND_NVAL, which wrap (R8). -/
abbrev counterWidth : Nat := 32
/-- The largest Integer, 0xFFFFFFFF (R5). -/
abbrev maxInteger : Nat := 0xFFFFFFFF
/-- The largest Byte, 0xFF (R6). -/
abbrev maxByte : Nat := 0xFF
/-- The largest group index of GRP (30_encoding.md R73). -/
abbrev maxIndex : Nat := 15

end Sys2Proof.Config
end

