-- ==== Sys2Proof/Word.lean ====
section
/-! DEFINITION. The word types, with the widths of Config written as numerals. Bits are numbered from 0,
the least significant (00_scope.md R9), and every value is unsigned. -/

namespace Sys2Proof

/-- An Integer, unsigned, `W_INT` = 32 bits (00_scope.md R5); also the counters (R8). -/
abbrev Word := BitVec 32
/-- A Byte, unsigned, `W_BYTE` = 8 bits (R6). -/
abbrev Byte := BitVec 8
/-- One group, `GROUP_BITS` = 7 bits, the payload of an encoded byte (R7, 40_group_rule.md R100). -/
abbrev Group := BitVec 7
/-- A command word, `CMD_WIDTH` = 40 bits (30_encoding.md R71). -/
abbrev CmdWord := BitVec 40

end Sys2Proof
end

