-- ==== Sys2Proof/Syntax.lean ====
section
/-! DEFINITION. The command set (30_encoding.md R76, R87): one constructor per row of
spec/opcode_table.json, with the operands of R75 at their widths. -/

namespace Sys2Proof

/-- The five commands. R75 gives each operand and its width. -/
inductive Instr where
  /-- `enc v`: encode one Integer (41_encode.md R116). -/
  | enc (v : Word)
  /-- `dec b`: consume one byte of the open decode transaction (42_decode.md R132). -/
  | dec (b : Byte)
  /-- `dend`: end the open decode transaction (42_decode.md R134). -/
  | dend
  /-- `grp v, k`: extract group k of v (40_group_rule.md R105). -/
  | grp (v : Word) (k : BitVec 4)
  /-- `cfd b`: detect the continuation flag of b (40_group_rule.md R106). -/
  | cfd (b : Byte)
  deriving DecidableEq, Repr

end Sys2Proof
end

