-- ==== Sys2Proof/WellFormed.lean ====
section
/-! DEFINITION. Which instructions and which lines of assembly are well formed. The operands of an
`Instr` have the widths of 30_encoding.md R75, so each of its terms is in range (41_encode.md R119:
an Integer outside the range cannot be presented). A line of assembly has numbers of any size, and R82
refuses those outside the ranges of R81: that is the check that can fail. -/

namespace Sys2Proof

/-- The operand ranges of 30_encoding.md R81: `v` of ENC and GRP. -/
def inInteger (n : Nat) : Bool := n ≤ Config.maxInteger
/-- R81: `b` of DEC and CFD. -/
def inByte (n : Nat) : Bool := n ≤ Config.maxByte
/-- R81: `k` of GRP. -/
def inIndex (n : Nat) : Bool := n ≤ Config.maxIndex

/-- Every operand of the instruction is in the range R81 gives it. -/
def Instr.wellFormed : Instr → Bool
  | .enc v => inInteger v.toNat
  | .dec b => inByte b.toNat
  | .dend => true
  | .grp v k => inInteger v.toNat && inIndex k.toNat
  | .cfd b => inByte b.toNat

/-- One line of assembly after its text is read (30_encoding.md R81, R83 to R85), with the numbers as
written. -/
inductive AsmLine where
  | enc (v : Nat)
  | dec (b : Nat)
  | dend
  | grp (v k : Nat)
  | cfd (b : Nat)
  /-- The pseudo-instruction `encode v1, ..., vn` (R83). -/
  | encode (vs : List Nat)
  /-- The pseudo-instruction `decode b1, ..., bn` (R84). -/
  | decode (bs : List Nat)
  /-- The directive `.word40 w` (R85). -/
  | word40 (w : Nat)
  deriving DecidableEq, Repr

/-- R82: every operand is in range. The range of `.word40` is that of a 40-bit word (DESIGN CHOICE,
safe, log entry 9: R85 states no range). -/
def AsmLine.wellFormed : AsmLine → Bool
  | .enc v => inInteger v
  | .dec b => inByte b
  | .dend => true
  | .grp v k => inInteger v && inIndex k
  | .cfd b => inByte b
  | .encode vs => vs.all inInteger
  | .decode bs => bs.all inByte
  | .word40 w => w < 2 ^ Config.cmdWidth

end Sys2Proof
end

