-- ==== Sys2Proof/Decode.lean ====
section
/-! DEFINITION. Command words: their fields (30_encoding.md R71 to R74), legality (R77), the opcode
table, decoding, and encoding (R86). A command word has no byte order (20_memory.md R51). -/

namespace Sys2Proof

/-- `OP = c[39:36]` (R72). -/
def opField (c : CmdWord) : BitVec 4 := c.extractLsb' 36 4
/-- `K = c[35:32]` (R73). -/
def kField (c : CmdWord) : BitVec 4 := c.extractLsb' 32 4
/-- `OPERAND = c[31:0]` (R74). -/
def operandField (c : CmdWord) : Word := c.extractLsb' 0 32
/-- `OPERAND[7:0]`, the byte of DEC and CFD (R74, R75). -/
def byteField (c : CmdWord) : Byte := c.extractLsb' 0 8
/-- `OPERAND[31:8]`, reserved in DEC and CFD (R74). -/
def upperField (c : CmdWord) : BitVec 24 := c.extractLsb' 8 24

/-- The legality predicate, clause by clause as R77 writes it. -/
def legal (c : CmdWord) : Bool :=
  (opField c == 0x1#4 && kField c == 0#4)
  || (opField c == 0x2#4 && kField c == 0#4 && upperField c == 0#24)
  || (opField c == 0x3#4 && kField c == 0#4 && operandField c == 0#32)
  || opField c == 0x4#4
  || (opField c == 0x5#4 && kField c == 0#4 && upperField c == 0#24)

/-- Why a word is illegal (R78): the encodings it calls reserved, by name. The names are the model's, and
every illegal word has one effect (DESIGN CHOICE, safe, log entry 14). -/
inductive IllegalReason where
  /-- Opcode 0x0 or 0x6 to 0xF. -/
  | reservedOpcode (op : BitVec 4)
  /-- K is not 0 in ENC, DEC, DEND or CFD. -/
  | reservedK (k : BitVec 4)
  /-- OPERAND[31:8] of DEC or CFD, or OPERAND of DEND, is not 0. -/
  | reservedOperand (operand : Word)
  deriving DecidableEq, Repr

/-- The command a word is, or why it is illegal (R75 to R78). -/
def decode (c : CmdWord) : Except IllegalReason Instr :=
  if opField c = 0x1#4 then
    if kField c ≠ 0#4 then .error (.reservedK (kField c))
    else .ok (.enc (operandField c))
  else if opField c = 0x2#4 then
    if kField c ≠ 0#4 then .error (.reservedK (kField c))
    else if upperField c ≠ 0#24 then .error (.reservedOperand (operandField c))
    else .ok (.dec (byteField c))
  else if opField c = 0x3#4 then
    if kField c ≠ 0#4 then .error (.reservedK (kField c))
    else if operandField c ≠ 0#32 then .error (.reservedOperand (operandField c))
    else .ok .dend
  else if opField c = 0x4#4 then
    .ok (.grp (operandField c) (kField c))
  else if opField c = 0x5#4 then
    if kField c ≠ 0#4 then .error (.reservedK (kField c))
    else if upperField c ≠ 0#24 then .error (.reservedOperand (operandField c))
    else .ok (.cfd (byteField c))
  else .error (.reservedOpcode (opField c))

/-- `(OP << 36) | (K << 32) | OPERAND` (R86). -/
def mkWord (op k : BitVec 4) (operand : Word) : CmdWord :=
  (op.setWidth 40 <<< 36) ||| (k.setWidth 40 <<< 32) ||| operand.setWidth 40

/-- The word of a command: OP from R76, K = k for GRP and 0 otherwise, OPERAND = v, b or 0 (R86). -/
def encode : Instr → CmdWord
  | .enc v => mkWord 0x1#4 0#4 v
  | .dec b => mkWord 0x2#4 0#4 (b.setWidth 32)
  | .dend => mkWord 0x3#4 0#4 0#32
  | .grp v k => mkWord 0x4#4 k v
  | .cfd b => mkWord 0x5#4 0#4 (b.setWidth 32)

/-- One row of spec/opcode_table.json: a word is the row's when its bits under the mask are the
pattern. -/
structure OpcodeRow where
  mnemonic : String
  pattern : CmdWord
  mask : CmdWord
  deriving DecidableEq, Repr

/-- spec/opcode_table.json, row by row. -/
def opcodeTable : List OpcodeRow :=
  [ ⟨"ENC", 0x1000000000#40, 0xFF00000000#40⟩,
    ⟨"DEC", 0x2000000000#40, 0xFFFFFFFF00#40⟩,
    ⟨"DEND", 0x3000000000#40, 0xFFFFFFFFFF#40⟩,
    ⟨"GRP", 0x4000000000#40, 0xF000000000#40⟩,
    ⟨"CFD", 0x5000000000#40, 0xFFFFFFFF00#40⟩ ]

/-- The word has the row's pattern under the row's mask. -/
def OpcodeRow.matchesWord (r : OpcodeRow) (c : CmdWord) : Bool := c &&& r.mask == r.pattern

/-- The mnemonic of the row of spec/opcode_table.json a command belongs to. -/
def Instr.mnemonic : Instr → String
  | .enc _ => "ENC"
  | .dec _ => "DEC"
  | .dend => "DEND"
  | .grp _ _ => "GRP"
  | .cfd _ => "CFD"

/-- The number `w` of `nbits` bits as a command word, its bits from `nbits` up being 0; none for a
number that does not fit the port's 40 bits (R79: every command word is exactly 40 bits). -/
def tableWord (nbits w : Nat) : Option CmdWord :=
  if w % 2 ^ nbits < 2 ^ Config.cmdWidth then some (BitVec.ofNat 40 (w % 2 ^ nbits)) else none

/-- What the decoder reads from the word numbered as spec/opcode_table.json numbers it: bit 0 is the
least significant bit of the 40-bit word (DEDUCED, safe, log entry 8). -/
def decodeTableWord (nbits w : Nat) : Option Instr :=
  match tableWord nbits w with
  | none => none
  | some c =>
    match decode c with
    | .ok i => some i
    | .error _ => none

end Sys2Proof
end

