-- ==== Sys2Proof/Machine/State.lean ====
section
/-! DEFINITION. The state of the block (10_state.md R21) and, beside it, the host-side record of its
ports (20_memory.md R47, R49): the inputs not yet taken, the two output streams and the answers to
register reads. -/

namespace Sys2Proof.Machine

/-- `STATUS.DEND_CODE`: the result of the last DEND (10_state.md R29). -/
inductive DendCode where
  /-- `00`: no DEND since reset. -/
  | none
  /-- `01`: the transaction decoded completely. -/
  | ok
  /-- `10`: the source's `IncompleteSequence`. -/
  | incomplete
  /-- `11`: a value above 0xFFFFFFFF. -/
  | overflow
  deriving DecidableEq, Repr

/-- What the host sends the block: the rows of 20_memory.md R61 in which it sends something. -/
inductive HostInput where
  /-- One 40-bit word on CMD. -/
  | command (c : CmdWord)
  /-- A register number on RD_IDX. -/
  | readReg (idx : BitVec 3)
  /-- RST. -/
  | reset
  deriving DecidableEq, Repr

/-- The block's state, field by field as 10_state.md R21 lists it, then the host-side record. STATUS is
held as its fields (DESIGN CHOICE, safe, log entry 6). -/
structure State where
  /-- `DEC_ACC` (R36), hidden. -/
  decAcc : Word
  /-- `STATUS.DEC_MID` (R26): true is MID_VALUE. -/
  decMid : Bool
  /-- `STATUS.DEC_OVF` (R27). -/
  decOvf : Bool
  /-- `STATUS.DEC_ERR` (R28). -/
  decErr : Bool
  /-- `STATUS.DEND_CODE` (R29). -/
  dendCode : DendCode
  /-- `STATUS.ILL` (R30). -/
  ill : Bool
  /-- `RESULT` (R32). -/
  result : Word
  /-- `ENC_LEN` (R33). -/
  encLen : BitVec 3
  /-- `DEC_NVAL` (R34). -/
  decNval : Word
  /-- `DEND_NVAL` (R35). -/
  dendNval : Word
  /-- `ENC_OUT` (20_memory.md R49), first element first. -/
  encOut : List Byte
  /-- `DEC_OUT` (R49), first element first. -/
  decOut : List Word
  /-- The `RD_DATA` answers so far (R47, R61), first answer first (DESIGN CHOICE, safe, log entry 4). -/
  rdData : List Word
  /-- The host's inputs the block has not taken yet, next one first (DESIGN CHOICE, safe, log entry 1). -/
  input : List HostInput
  deriving DecidableEq, Repr

/-- What stops the machine: nothing. "The block never traps" (60_exceptions.md R161), no error
condition stops it (R169), and every behaviour has a next state (93_implementation_defined.md).
DEDUCED, unsafe for a claim that a run goes on (log entry 13). -/
inductive Fault where
  deriving DecidableEq, Repr

/-- What the model has no meaning for. -/
inductive Refusal where
  /-- An instruction of the table not modelled yet. Only an arm of `exec` could raise it, and none
  does; it would be safe. -/
  | notModelled (mnemonic : String)
  deriving DecidableEq, Repr

/-- The launch state: the reset values of 70_reset_and_hazards.md R186 and R187 (R189), with both
streams empty (DEDUCED from 95_test_vectors.md section 3, unsafe for a claim about a whole stream, log
entry 7), no register read answered and no input waiting (DESIGN CHOICE, safe, log entries 1 and 4). -/
def State.reset : State where
  decAcc := 0#32
  decMid := false
  decOvf := false
  decErr := false
  dendCode := .none
  ill := false
  result := 0#32
  encLen := 0#3
  decNval := 0#32
  dendNval := 0#32
  encOut := []
  decOut := []
  rdData := []
  input := []

end Sys2Proof.Machine
end

