-- ==== Sys2Proof/Machine/Operands.lean ====
section
/-! DEFINITION. The byte-group rule shared by the encoder and the decoder (40_group_rule.md R96 to
R104) and the arithmetic of 00_scope.md R10 it is written in. -/

namespace Sys2Proof.Machine

/-- `bitlen(a)`, the least n with `a < 2^n` (00_scope.md R10). -/
def bitlen (a : Nat) : Nat := if a = 0 then 0 else a.log2 + 1

/-- `ceil(a / b) = (a + b - 1) div b` (00_scope.md R10). -/
def ceilDiv (a b : Nat) : Nat := (a + b - 1) / b

/-- `GROUP(v, i) = (v >> (7*i)) & 0x7F`, a 7-bit value (40_group_rule.md R96). -/
def group (v : Word) (i : Nat) : Group := ((v >>> (7 * i)) &&& 0x7F#32).setWidth 7

/-- `NBYTES(v) = max(1, ceil(bitlen(v) / 7))` (R97). -/
def nbytes (v : Word) : Nat := max 1 (ceilDiv (bitlen v.toNat) 7)

/-- `CONT(b) = b[7]`, the continuation-flag detector (R99). -/
def cont (b : Byte) : Bool := b.getLsbD 7

/-- `PAYLOAD(b) = b[6:0]` (R100). -/
def payload (b : Byte) : Group := b.extractLsb' 0 7

/-- `EB(v, i) = (if i > 0 then 0x80 else 0x00) | GROUP(v, i)` (R101). -/
def encByte (v : Word) (i : Nat) : Byte :=
  (if i > 0 then 0x80#8 else 0x00#8) ||| (group v i).setWidth 8

/-- `[EB(v, n-1), ..., EB(v, 0)]`. -/
def encBytesDown (v : Word) : Nat → List Byte
  | 0 => []
  | n + 1 => encByte v n :: encBytesDown v n

/-- `VLQ(v)`: its groups, most significant first (R101; the group order of 20_memory.md R50). -/
def vlq (v : Word) : List Byte := encBytesDown v (nbytes v)

/-- `encode(vs) = VLQ(v1) ++ ... ++ VLQ(vm)` (41_encode.md R120). -/
def encodeSeq (vs : List Word) : List Byte := vs.flatMap vlq

/-- The first value's encoding in a byte stream and what follows it: it ends at, and includes, the
first byte whose continuation flag is clear (30_encoding.md R80). None when no byte ends it. -/
def firstEncoding : List Byte → Option (List Byte × List Byte)
  | [] => none
  | b :: bs =>
    if cont b then (firstEncoding bs).map (fun p => (b :: p.1, p.2)) else some ([b], bs)

end Sys2Proof.Machine
end

