-- ==== Sys2Proof/Machine/Flags.lean ====
section
/-! DEFINITION. The STATUS register: how its fields lie in the word the host reads (10_state.md R25)
and how DEC and DEND compute them (42_decode.md R132, R134). -/

namespace Sys2Proof.Machine

/-- The two bits of DEND_CODE (10_state.md R29). -/
def DendCode.bits : DendCode → BitVec 2
  | .none => 0b00#2
  | .ok => 0b01#2
  | .incomplete => 0b10#2
  | .overflow => 0b11#2

/-- STATUS as the host reads it: reserved zeros [31:6] (R31), ILL [5], DEND_CODE [4:3], DEC_ERR [2],
DEC_OVF [1], DEC_MID [0] (R25). -/
def statusWord (s : State) : Word :=
  0#26 ++ BitVec.ofBool s.ill ++ s.dendCode.bits ++ BitVec.ofBool s.decErr ++
    BitVec.ofBool s.decOvf ++ BitVec.ofBool s.decMid

/-- `carry = DEC_ACC[31:25]`, the bits a left shift by 7 pushes past bit 31 (42_decode.md R132). -/
def carry (acc : Word) : Group := acc.extractLsb' 25 7

/-- `acc = trunc_32(DEC_ACC << 7) | PAYLOAD(b)` (R132). -/
def accNext (acc : Word) (b : Byte) : Word := (acc <<< 7) ||| (payload b).setWidth 32

/-- `ovf = STATUS.DEC_OVF or (carry != 0)` (R132). -/
def ovfNext (ovf : Bool) (acc : Word) : Bool := ovf || carry acc != 0#7

/-- The code DEND reports (R134). -/
def dendResult (s : State) : DendCode :=
  if s.decErr then .overflow else if s.decMid then .incomplete else .ok

end Sys2Proof.Machine
end

