-- ==== Sys2Proof/Machine/Ops.lean ====
section
/-! DEFINITION. The named operations on the state that the meanings, the register port and reset are
made of. -/

namespace Sys2Proof.Machine

/-- `emit_enc(b)`: append one byte to ENC_OUT (00_scope.md R11, 20_memory.md R49). -/
def emitEnc (b : Byte) (s : State) : State := { s with encOut := s.encOut ++ [b] }

/-- `emit_dec(w)`: append one word to DEC_OUT (R11, R49). -/
def emitDec (w : Word) (s : State) : State := { s with decOut := s.decOut ++ [w] }

/-- ENC's loop `for i = n-1 down to 0: emit_enc(EB(v, i))` (41_encode.md R116). -/
def emitGroups (v : Word) : Nat → State → State
  | 0, s => s
  | n + 1, s => emitGroups v n (emitEnc (encByte v n) s)

/-- `RESULT <- w` (40_group_rule.md R105, R106). -/
def setResult (w : Word) (s : State) : State := { s with result := w }

/-- `ENC_LEN <- n` (41_encode.md R116). -/
def setEncLen (n : Nat) (s : State) : State := { s with encLen := BitVec.ofNat 3 n }

/-- What DEC writes for a byte that does not end its value (42_decode.md R132). -/
def continueValue (acc : Word) (ovf : Bool) (s : State) : State :=
  { s with decAcc := acc, decOvf := ovf, decMid := true }

/-- `DEC_NVAL <- trunc_32(DEC_NVAL + 1)` (R132). -/
def countValue (s : State) : State := { s with decNval := s.decNval + 1#32 }

/-- `STATUS.DEC_ERR <- 1` (R132). -/
def failTransaction (s : State) : State := { s with decErr := true }

/-- `DEC_ACC <- 0; STATUS.DEC_OVF <- 0; STATUS.DEC_MID <- 0` (R132, R134). -/
def clearValue (s : State) : State :=
  { s with decAcc := 0#32, decOvf := false, decMid := false }

/-- DEND's report: `DEND_CODE <- code; DEND_NVAL <- DEC_NVAL` (R134). -/
def reportTransaction (s : State) : State :=
  { s with dendCode := dendResult s, dendNval := s.decNval }

/-- The decoder context becomes clear (R131, R134). -/
def clearContext (s : State) : State :=
  { clearValue s with decErr := false, decNval := 0#32 }

/-- `raise IllegalCommand()`: `STATUS.ILL <- 1` and nothing else (60_exceptions.md R165). The block's
one exception: no trap (R161), and nothing returns from it (R169). -/
def raiseIllegalCommand (s : State) : State := { s with ill := true }

/-- The RST step (70_reset_and_hazards.md R186): every state element at its reset value; the streams
and the rest of the host-side record stay. -/
def resetBlock (s : State) : State :=
  { State.reset with encOut := s.encOut, decOut := s.decOut, rdData := s.rdData, input := s.input }

/-- The register read port (10_state.md R25); numbers 5, 6 and 7 read 0. -/
def readReg (idx : BitVec 3) (s : State) : Word :=
  match idx.toNat with
  | 0 => statusWord s
  | 1 => s.result
  | 2 => s.encLen.setWidth 32
  | 3 => s.decNval
  | 4 => s.dendNval
  | _ => 0#32

/-- A register read: the host gets the value and the block does nothing (20_memory.md R54, R61). -/
def answerRead (idx : BitVec 3) (s : State) : State :=
  { s with rdData := s.rdData ++ [readReg idx s] }

/-- The next input and the state with it taken; none when the host sends nothing (20_memory.md R48). -/
def takeInput (s : State) : Option (HostInput × State) :=
  match s.input with
  | [] => none
  | x :: rest => some (x, { s with input := rest })

/-- The host issues command `c` ahead of every waiting input. -/
def issueNext (c : CmdWord) (s : State) : State := { s with input := .command c :: s.input }

end Sys2Proof.Machine
end

