-- ==== Sys2Proof/Machine/Decoder.lean ====
section
/-! DEFINITION. The VLQ decoder: DEC and DEND (42_decode.md). -/

namespace Sys2Proof.Machine

/-- `DEC(b)` (42_decode.md R132). Every read sees the state before the step (00_scope.md R12). -/
def execDec (b : Byte) (s : State) : Host.Outcome State Fault Refusal :=
  if s.decErr then .next s
  else if cont b then
    .next (continueValue (accNext s.decAcc b) (ovfNext s.decOvf s.decAcc) s)
  else if ovfNext s.decOvf s.decAcc then
    .next (clearValue (failTransaction s))
  else
    .next (clearValue (countValue (emitDec (accNext s.decAcc b) s)))

/-- `DEND()` (R134). -/
def execDend (s : State) : Host.Outcome State Fault Refusal :=
  .next (clearContext (reportTransaction s))

end Sys2Proof.Machine
end

