-- ==== Sys2Proof/Machine/Encoder.lean ====
section
/-! DEFINITION. The VLQ encoder: ENC (41_encode.md). -/

namespace Sys2Proof.Machine

/-- `ENC(v)`: emit the NBYTES(v) bytes of v, most significant group first, then
`ENC_LEN <- NBYTES(v)` (41_encode.md R116). -/
def execEnc (v : Word) (s : State) : Host.Outcome State Fault Refusal :=
  .next (setEncLen (nbytes v) (emitGroups v (nbytes v) s))

end Sys2Proof.Machine
end

