-- ==== Sys2Proof/Machine/Group.lean ====
section
/-! DEFINITION. The bit-group extractor and the continuation-flag detector: GRP and CFD
(40_group_rule.md). -/

namespace Sys2Proof.Machine

/-- `GRP(v, k): RESULT <- zext_32(GROUP(v, k))` (40_group_rule.md R105). -/
def execGrp (v : Word) (k : BitVec 4) (s : State) : Host.Outcome State Fault Refusal :=
  .next (setResult ((group v k.toNat).setWidth 32) s)

/-- `CFD(b): RESULT <- zext_32(CONT(b))` (R106). -/
def execCfd (b : Byte) (s : State) : Host.Outcome State Fault Refusal :=
  .next (setResult ((BitVec.ofBool (cont b)).setWidth 32) s)

end Sys2Proof.Machine
end

