-- ==== Sys2Proof/Machine/Dispatch.lean ====
section
/-! DEFINITION. Which meaning each command has (30_encoding.md R76). -/

namespace Sys2Proof.Machine

/-- The effect of one legal command (30_encoding.md R76). -/
def exec (i : Instr) (s : State) : Host.Outcome State Fault Refusal :=
  match i with
  | .enc v => Sys2Proof.Machine.execEnc v s
  | .dec b => Sys2Proof.Machine.execDec b s
  | .dend => Sys2Proof.Machine.execDend s
  | .grp v k => Sys2Proof.Machine.execGrp v k s
  | .cfd b => Sys2Proof.Machine.execCfd b s

end Sys2Proof.Machine
end

