-- ==== Sys2Proof/Machine/Command.lean ====
section
/-! DEFINITION. What one host input does: the `step(c)` of 30_encoding.md R76 for a command word, and
the other rows of 20_memory.md R61. -/

namespace Sys2Proof.Machine

/-- `step(c)` (30_encoding.md R76): a legal word runs its command, an illegal one raises
IllegalCommand (R78). -/
def runCommand (c : CmdWord) (s : State) : Host.Outcome State Fault Refusal :=
  match decode c with
  | .ok i => exec i s
  | .error _ => .next (raiseIllegalCommand s)

/-- The effect of one host input (20_memory.md R61). -/
def runInput (x : HostInput) (s : State) : Host.Outcome State Fault Refusal :=
  match x with
  | .command c => runCommand c s
  | .readReg idx => .next (answerRead idx s)
  | .reset => .next (resetBlock s)

/-- One step: take the next input and run it; with none waiting the block is idle and keeps all state
(60_exceptions.md R176; DEDUCED, safe, log entry 3). -/
def takeAndRun (s : State) : Host.Outcome State Fault Refusal :=
  match takeInput s with
  | none => .next s
  | some (x, t) => runInput x t

end Sys2Proof.Machine
end

