-- ==== Sys2Proof/Machine/Step.lean ====
section
/-! DEFINITION. The machine's one step, and how a command word is put where the step takes it. -/

namespace Sys2Proof.Machine

/-- One atomic step (00_scope.md R12, 20_memory.md R48). -/
def step (s : State) : Host.Outcome State Fault Refusal := takeAndRun s

/-- The state in which the host has issued, as its very next input, the word `w` of `nbits` bits
(DESIGN CHOICE, safe, log entry 5). A number that does not fit the 40-bit port is no word and changes nothing. -/
def State.withFetchWord (s : State) (nbits w : Nat) : State :=
  match tableWord nbits w with
  | none => s
  | some c => issueNext c s

end Sys2Proof.Machine
end

