-- ==== Sys2Proof/Machine/Assembler.lean ====
section
/-! DEFINITION. The assembler of 30_encoding.md section 5: from text to lines (R81, R82), and from
lines to command words (R83 to R86). -/

namespace Sys2Proof.Machine

/-- An assembly error (30_encoding.md R82): no word is produced. -/
inductive AsmError where
  /-- The line's first word is no mnemonic, pseudo-instruction or directive. -/
  | unknownMnemonic
  /-- An operand is not a number R82 allows. -/
  | badNumber
  /-- The mnemonic takes another number of operands. -/
  | wrongOperandCount
  /-- An operand is outside its range in R81. -/
  | outOfRange
  deriving DecidableEq, Repr

/-- The words of one line (R83 to R86), its operands in range. -/
def lineWords : AsmLine → List CmdWord
  | .enc v => [encode (.enc (BitVec.ofNat 32 v))]
  | .dec b => [encode (.dec (BitVec.ofNat 8 b))]
  | .dend => [encode .dend]
  | .grp v k => [encode (.grp (BitVec.ofNat 32 v) (BitVec.ofNat 4 k))]
  | .cfd b => [encode (.cfd (BitVec.ofNat 8 b))]
  | .encode vs => vs.map fun v => encode (.enc (BitVec.ofNat 32 v))
  | .decode bs => (bs.map fun b => encode (.dec (BitVec.ofNat 8 b))) ++ [encode .dend]
  | .word40 w => [BitVec.ofNat 40 w]

/-- Assemble one line: an operand out of range is an error and produces no word (R82). -/
def assembleLine (l : AsmLine) : Except AsmError (List CmdWord) :=
  if l.wellFormed then .ok (lineWords l) else .error .outOfRange

/-- Assemble lines in order; one error and there is no word at all (R82; of the whole text: DESIGN
CHOICE, log entry 10). -/
def assembleLines : List AsmLine → Except AsmError (List CmdWord)
  | [] => .ok []
  | l :: ls =>
    match assembleLine l, assembleLines ls with
    | .ok ws, .ok rest => .ok (ws ++ rest)
    | .error e, _ => .error e
    | .ok _, .error e => .error e

/-- The pieces of a text between the separators. -/
def splitOnChar (sep : Char) : List Char → List (List Char)
  | [] => [[]]
  | c :: cs =>
    if c = sep then [] :: splitOnChar sep cs
    else
      match splitOnChar sep cs with
      | [] => [[c]]
      | w :: ws => (c :: w) :: ws

/-- The white space of a line (DESIGN CHOICE, unsafe for a claim about text that R81 and R82 do not
settle, log entry 10). -/
def isBlank (c : Char) : Bool := c = ' ' || c = '\t' || c = '\r'

/-- The text without the white space around it. -/
def trim (cs : List Char) : List Char :=
  ((cs.dropWhile isBlank).reverse.dropWhile isBlank).reverse

/-- The letter in lower case (R81: case-insensitive; that it holds of `0x` and of digits too is log
entry 10). -/
def lowerChar (c : Char) : Char :=
  if 65 ≤ c.toNat ∧ c.toNat ≤ 90 then Char.ofNat (c.toNat + 32) else c

/-- The value of a digit, decimal or hexadecimal, in lower case. -/
def digitValue (c : Char) : Option Nat :=
  if 48 ≤ c.toNat ∧ c.toNat ≤ 57 then some (c.toNat - 48)
  else if 97 ≤ c.toNat ∧ c.toNat ≤ 102 then some (c.toNat - 87)
  else none

/-- Digits of a base, most significant first, after the value `acc`. -/
def readDigits (base : Nat) : List Char → Nat → Option Nat
  | [], acc => some acc
  | c :: cs, acc =>
    match digitValue c with
    | none => none
    | some d => if d < base then readDigits base cs (acc * base + d) else none

/-- A numeric operand in lower case: hexadecimal after `0x`, else decimal (R82). -/
def readNumber : List Char → Option Nat
  | [] => none
  | '0' :: 'x' :: [] => none
  | '0' :: 'x' :: cs => readDigits 16 cs 0
  | cs => readDigits 10 cs 0

/-- The numbers of operands given one by one. -/
def readNumbers : List (List Char) → Option (List Nat)
  | [] => some []
  | w :: ws =>
    match readNumber (trim w), readNumbers ws with
    | some n, some ns => some (n :: ns)
    | _, _ => none

/-- The operands of a line, separated by commas (R81); none when nothing stands there. -/
def readOperands (cs : List Char) : Option (List Nat) :=
  if trim cs = [] then some [] else readNumbers (splitOnChar ',' cs)

/-- The line a mnemonic and its operands make (R81, R83 to R85). -/
def lineOf (mnemonic : List Char) (ns : List Nat) : Except AsmError AsmLine :=
  if mnemonic = ['e', 'n', 'c'] then
    match ns with
    | [v] => .ok (.enc v)
    | _ => .error .wrongOperandCount
  else if mnemonic = ['d', 'e', 'c'] then
    match ns with
    | [b] => .ok (.dec b)
    | _ => .error .wrongOperandCount
  else if mnemonic = ['d', 'e', 'n', 'd'] then
    match ns with
    | [] => .ok .dend
    | _ => .error .wrongOperandCount
  else if mnemonic = ['g', 'r', 'p'] then
    match ns with
    | [v, k] => .ok (.grp v k)
    | _ => .error .wrongOperandCount
  else if mnemonic = ['c', 'f', 'd'] then
    match ns with
    | [b] => .ok (.cfd b)
    | _ => .error .wrongOperandCount
  else if mnemonic = ['e', 'n', 'c', 'o', 'd', 'e'] then .ok (.encode ns)
  else if mnemonic = ['d', 'e', 'c', 'o', 'd', 'e'] then .ok (.decode ns)
  else if mnemonic = ['.', 'w', 'o', 'r', 'd', '4', '0'] then
    match ns with
    | [w] => .ok (.word40 w)
    | _ => .error .wrongOperandCount
  else .error .unknownMnemonic

/-- One line of text: none when only white space and a comment stand in it (R81). -/
def readLine (cs : List Char) : Except AsmError (Option AsmLine) :=
  let code := trim ((cs.takeWhile (· ≠ ';')).map lowerChar)
  if code = [] then .ok none
  else
    match readOperands (code.dropWhile fun c => !isBlank c) with
    | none => .error .badNumber
    | some ns =>
      match lineOf (code.takeWhile fun c => !isBlank c) ns with
      | .ok l => .ok (some l)
      | .error e => .error e

/-- The lines of a text, one command a line (R81). -/
def readLines : List (List Char) → Except AsmError (List AsmLine)
  | [] => .ok []
  | t :: ts =>
    match readLine t, readLines ts with
    | .ok none, .ok ls => .ok ls
    | .ok (some l), .ok ls => .ok (l :: ls)
    | .error e, _ => .error e
    | .ok _, .error e => .error e

/-- The command words of a text, or an assembly error and no word. -/
def assemble (text : List Char) : Except AsmError (List CmdWord) :=
  match readLines (splitOnChar '\n' text) with
  | .ok ls => assembleLines ls
  | .error e => .error e

end Sys2Proof.Machine
end

