-- ==== Sys2Proof/Machine/Transaction.lean ====
section
/-! DEFINITION. The source's two operations as the host runs them: a sequence of ENC commands
(41_encode.md R120), a decode transaction and its result (42_decode.md R136, R137), and the reference
function of a transaction (R138). -/

namespace Sys2Proof.Machine

/-- `n` steps, stopping at the first fault or refusal. -/
def run : Nat → State → Host.Outcome State Fault Refusal
  | 0, s => .next s
  | n + 1, s =>
    match step s with
    | .next t => run n t
    | .fault f => .fault f
    | .refused r => .refused r

/-- The host issues `xs`, ahead of every waiting input. -/
def issue (xs : List HostInput) (s : State) : State := { s with input := xs ++ s.input }

/-- The host issues `xs` and the block takes them all, one step each (70_reset_and_hazards.md R193). -/
def runAll (xs : List HostInput) (s : State) : Host.Outcome State Fault Refusal :=
  run xs.length (issue xs s)

/-- The CMD input of one command. -/
def commandOf (i : Instr) : HostInput := .command (encode i)

/-- `encode v1, ..., vn`: one ENC per value (30_encoding.md R83). -/
def encodeCommands (vs : List Word) : List HostInput := vs.map fun v => commandOf (.enc v)

/-- The DEC commands of a byte sequence. -/
def decCommands (bs : List Byte) : List HostInput := bs.map fun b => commandOf (.dec b)

/-- `decode b1, ..., bn`: one DEC per byte, then DEND (30_encoding.md R84, 42_decode.md R136). -/
def decodeTransaction (bs : List Byte) : List HostInput := decCommands bs ++ [commandOf .dend]

/-- What a decode call fails with: the source's one domain error, and the spec's own OVERFLOW
(60_exceptions.md R163, R164). -/
inductive DecodeError where
  | incompleteSequence
  | overflow
  deriving DecidableEq, Repr

/-- The decoder context is clear (42_decode.md R131). -/
def ContextClear (s : State) : Prop :=
  s.decAcc = 0#32 ∧ s.decMid = false ∧ s.decOvf = false ∧ s.decErr = false ∧ s.decNval = 0#32

/-- `W`: the words appended to DEC_OUT between two states (R137). -/
def wordsBetween (before after : State) : List Word := after.decOut.drop before.decOut.length

/-- The result of the decode transaction that ran from `before` to `after` (R137). DEND_CODE = NONE is
no result: no DEND, or a reset in the middle (70_reset_and_hazards.md R188; DEDUCED, safe, log entry
12). -/
def transactionResult (before after : State) : Option (Except DecodeError (List Word)) :=
  match after.dendCode with
  | .none => none
  | .ok => some (.ok (wordsBetween before after))
  | .incomplete => some (.error .incompleteSequence)
  | .overflow => some (.error .overflow)

/-- The source's unbounded accumulator after one more byte: `128*A + PAYLOAD(b)` (R133, R138). -/
def accumulate (a : Nat) (b : Byte) : Nat := 128 * a + (payload b).toNat

/-- The loop of `decode_ref` (R138): accumulator, MID_VALUE, output so far. -/
def decodeRefLoop : List Byte → Nat → Bool → List Nat → Except DecodeError (List Nat)
  | [], _, mid, out => if mid then .error .incompleteSequence else .ok out
  | b :: bs, a, _, out =>
    if cont b then decodeRefLoop bs (accumulate a b) true out
    else if accumulate a b > Config.maxInteger then .error .overflow
    else decodeRefLoop bs 0 false (out ++ [accumulate a b])

/-- `decode_ref(bs)` (R138). -/
def decodeRef (bs : List Byte) : Except DecodeError (List Nat) := decodeRefLoop bs 0 false []

/-- The words on DEC_OUT the host may hold as results after a DEND: when the transaction failed, the
last DEND_NVAL words are none (20_memory.md R64; DEDUCED, safe, log entry 15). -/
def keptAfterDend (s : State) : List Word :=
  match s.dendCode with
  | .incomplete => s.decOut.take (s.decOut.length - s.dendNval.toNat)
  | .overflow => s.decOut.take (s.decOut.length - s.dendNval.toNat)
  | _ => s.decOut

/-- The words on DEC_OUT the host may hold as results when it resets the block in the middle of a
transaction: it counts the others from DEC_NVAL read before the reset (R64; DEDUCED, safe, log entry 15). -/
def keptAtReset (s : State) : List Word := s.decOut.take (s.decOut.length - s.decNval.toNat)

end Sys2Proof.Machine
end

