-- ==== Sys2Proof/Safety.lean ====
section
/-! DEFINITION. What claims about runs are stated in: reachability from the launch state
(70_reset_and_hazards.md R189), the invariants of 10_state.md R39, and what the decoder side of the
machine is (20_memory.md R62). -/

namespace Sys2Proof.Machine

/-- Rule R39, clause by clause. -/
structure Inv (s : State) : Prop where
  /-- (a) `DEC_MID = 0` implies `DEC_ACC = 0` and `DEC_OVF = 0`. -/
  idle : s.decMid = false → s.decAcc = 0#32 ∧ s.decOvf = false
  /-- (b) `DEC_ERR = 1` implies `DEC_MID = 0`, `DEC_ACC = 0` and `DEC_OVF = 0`. -/
  failed : s.decErr = true → s.decMid = false ∧ s.decAcc = 0#32 ∧ s.decOvf = false
  /-- (c) `ENC_LEN` is in 0 to 5. -/
  encLen : s.encLen.toNat ≤ 5
  /-- (d) `RESULT < 128`. -/
  result : s.result.toNat < 128

/-- The states the machine can come to from the launch state: the host may add inputs at any time
(20_memory.md R61), and the block takes steps. -/
inductive Reachable : State → Prop where
  | launch : Reachable State.reset
  | host {s : State} (xs : List HostInput) : Reachable s → Reachable { s with input := s.input ++ xs }
  | step {s t : State} : Reachable s → step s = .next t → Reachable t

/-- The input is a word that decodes to DEC or DEND. -/
def HostInput.isDecoder : HostInput → Bool
  | .command c =>
    match Sys2Proof.decode c with
    | .ok (.dec _) => true
    | .ok .dend => true
    | _ => false
  | _ => false

/-- Whether a transaction is open after the input: a DEC word opens or continues one, a DEND word or a
reset ends it, and nothing else matters (42_decode.md R136, 70_reset_and_hazards.md R188). -/
def HostInput.openAfter (isOpen : Bool) : HostInput → Bool
  | .command c =>
    match Sys2Proof.decode c with
    | .ok (.dec _) => true
    | .ok .dend => false
    | _ => isOpen
  | .readReg _ => isOpen
  | .reset => false

/-- Whether the inputs leave a transaction open, which the host's duty of 20_memory.md R65 forbids at
their end. -/
def leavesOpen : Bool → List HostInput → Bool
  | isOpen, [] => isOpen
  | isOpen, x :: xs => leavesOpen (x.openAfter isOpen) xs

/-- Two states agree on the decoder: its context, DEND_CODE, DEND_NVAL (20_memory.md R62) and
DEC_OUT. -/
def SameDecoder (s t : State) : Prop :=
  s.decAcc = t.decAcc ∧ s.decMid = t.decMid ∧ s.decOvf = t.decOvf ∧ s.decErr = t.decErr ∧
  s.decNval = t.decNval ∧ s.dendNval = t.dendNval ∧ s.dendCode = t.dendCode ∧ s.decOut = t.decOut

end Sys2Proof.Machine
end

