-- ==== Sys2Proof/Certificates/Slice0/Obligations.lean ====
section
/-! DEFINITION. The statements for the provers. Each docstring names the rules of spec/ it formalises. -/

open Sys2Proof Sys2Proof.Machine

/-! ## Reset, registers, the read port -/

/-- 70_reset_and_hazards.md R187: every state element at its reset value, so every register reads 0. -/
def Obligations.ResetStateHoldsResetValues : Prop :=
  State.reset.decAcc = 0#32 ∧ State.reset.decMid = false ∧ State.reset.decOvf = false ∧
  State.reset.decErr = false ∧ State.reset.dendCode = .none ∧ State.reset.ill = false ∧
  State.reset.result = 0#32 ∧ State.reset.encLen = 0#3 ∧ State.reset.decNval = 0#32 ∧
  State.reset.dendNval = 0#32 ∧ ∀ idx : BitVec 3, readReg idx State.reset = 0#32

/-- 70_reset_and_hazards.md R186: the RST step writes every state element, emits nothing and changes
no element of either stream. That the record of register reads and the inputs still waiting stay is the
model's choice (log entries 4 and 1). -/
def Obligations.ResetStepWritesEveryElement : Prop :=
  ∀ (s : State) (rest : List HostInput), s.input = .reset :: rest →
    step s = .next
      { decAcc := 0#32, decMid := false, decOvf := false, decErr := false, dendCode := .none,
        ill := false, result := 0#32, encLen := 0#3, decNval := 0#32, dendNval := 0#32,
        encOut := s.encOut, decOut := s.decOut, rdData := s.rdData, input := rest }

/-- 70_reset_and_hazards.md R188: a reset in the middle of a transaction leaves DEND_CODE at NONE, so
there is no result; the words emitted stay on DEC_OUT. With R64's second half: of them the host keeps
those from before the transaction, counting the others from DEC_NVAL read before the reset. -/
def Obligations.ResetCutsTransactionWithoutResult : Prop :=
  ∀ (bs : List Byte) (s : State), ContextClear s → bs.length < 2 ^ 32 →
    ∃ u t, runAll (decCommands bs) s = .next u ∧ runAll (decCommands bs ++ [.reset]) s = .next t ∧
      t.dendCode = .none ∧ transactionResult s t = none ∧ ContextClear t ∧
      t.decOut = u.decOut ∧ keptAtReset u = s.decOut

/-- 10_state.md R25 and R31: the read port, register by register, the bits of STATUS, the reserved bits
and numbers, and that a read changes nothing of the block. That a read is a step, which takes one input
and appends its answer to a record, is the model's choice (log entries 4 and 1). -/
def Obligations.ReadPortShowsRegisters : Prop :=
  ∀ s : State,
    (readReg 0#3 s).getLsbD 0 = s.decMid ∧ (readReg 0#3 s).getLsbD 1 = s.decOvf ∧
    (readReg 0#3 s).getLsbD 2 = s.decErr ∧
    (readReg 0#3 s).getLsbD 3 = decide (s.dendCode = .ok ∨ s.dendCode = .overflow) ∧
    (readReg 0#3 s).getLsbD 4 = decide (s.dendCode = .incomplete ∨ s.dendCode = .overflow) ∧
    (readReg 0#3 s).getLsbD 5 = s.ill ∧
    (∀ i, 6 ≤ i → (readReg 0#3 s).getLsbD i = false) ∧
    readReg 1#3 s = s.result ∧ (readReg 2#3 s).toNat = s.encLen.toNat ∧
    readReg 3#3 s = s.decNval ∧ readReg 4#3 s = s.dendNval ∧
    (∀ idx : BitVec 3, 5 ≤ idx.toNat → readReg idx s = 0#32) ∧
    ∀ (idx : BitVec 3) (rest : List HostInput), s.input = .readReg idx :: rest →
      step s = .next { s with rdData := s.rdData ++ [readReg idx s], input := rest }

/-- 20_memory.md R54 and R56: a register read answers with what every command before it left, and a
second read with no step between them gives the same value. The record that both answers are appended to
is the model's choice (log entry 4). -/
def Obligations.ReadAfterCommandSeesItAndRepeats : Prop :=
  ∀ (i : Instr) (idx : BitVec 3) (s : State), ∃ u t, exec i s = .next u ∧
    runAll [commandOf i, .readReg idx, .readReg idx] s = .next t ∧
    t = { u with rdData := s.rdData ++ [readReg idx u, readReg idx u] }

/-! ## One step -/

/-- 20_memory.md R48 and 30_encoding.md R76: a step takes the next command word and, when it decodes to
`i`, is `i`'s effect on the state with that word taken. The list of waiting inputs is the model's
(log entry 1). -/
def Obligations.StepRunsDecodedInstruction : Prop :=
  ∀ (s : State) (c : CmdWord) (rest : List HostInput) (i : Instr),
    s.input = .command c :: rest → decode c = .ok i → step s = exec i { s with input := rest }

/-- 20_memory.md R48: a word placed with `withFetchWord` is the very next command, and nothing else of
the state changes by placing it (the model's loading, log entry 5). -/
def Obligations.FetchWordIsTheNextCommand : Prop :=
  ∀ (s : State) (c : CmdWord), step (s.withFetchWord 40 c.toNat) = runCommand c s

/-- 30_encoding.md R78 and 60_exceptions.md R165: an illegal word sets STATUS.ILL and changes nothing
else; opcodes 0x0 and 0x6 to 0xF, and every legal opcode with a non-zero reserved field, are illegal. -/
def Obligations.IllegalWordSetsIllOnly : Prop :=
  (∀ (s : State) (c : CmdWord) (rest : List HostInput),
    s.input = .command c :: rest → legal c = false → step s = .next { s with ill := true, input := rest }) ∧
  ∀ c : CmdWord,
    (c.toNat / 2 ^ 36 = 0 → legal c = false) ∧ (6 ≤ c.toNat / 2 ^ 36 → legal c = false) ∧
    (c.toNat / 2 ^ 36 = 1 → c.toNat / 2 ^ 32 % 2 ^ 4 ≠ 0 → legal c = false) ∧
    (c.toNat / 2 ^ 36 = 2 → c.toNat / 2 ^ 8 % 2 ^ 28 ≠ 0 → legal c = false) ∧
    (c.toNat / 2 ^ 36 = 3 → c.toNat % 2 ^ 36 ≠ 0 → legal c = false) ∧
    (c.toNat / 2 ^ 36 = 5 → c.toNat / 2 ^ 8 % 2 ^ 28 ≠ 0 → legal c = false)

/-- 60_exceptions.md R176: between commands the block is idle and keeps all state. That a step with no
input waiting is this idling is the model's (log entry 3). -/
def Obligations.IdleStepKeepsState : Prop :=
  ∀ (s : State) (n : Nat), s.input = [] → run n s = .next s

/-- 70_reset_and_hazards.md R194 and 60_exceptions.md R161: every step ends in a next state, so no run
stops on any input; each step takes one input. That nothing at all stops the machine (log entry 13), that
a step with no input waiting idles (log entry 3) and that a step takes one input of a list (log entry 1)
are the model's. -/
def Obligations.EveryStepCompletes : Prop :=
  (∀ s : State, ∃ t, step s = .next t ∧ t.input = s.input.tail) ∧
  ∀ (n : Nat) (s : State), ∃ t, run n s = .next t ∧ t.input = s.input.drop n

/-! ## Command words -/

/-- 30_encoding.md R77: the legality predicate on the bits of the word; a word is legal exactly when it
decodes to a command, and then it matches exactly one row of the opcode table, that command's; an
illegal one matches none. -/
def Obligations.LegalWordsAreTheOpcodeMap : Prop :=
  ∀ c : CmdWord,
    (legal c = true ↔
      (c.toNat / 2 ^ 36 = 1 ∧ c.toNat / 2 ^ 32 % 2 ^ 4 = 0) ∨
      (c.toNat / 2 ^ 36 = 2 ∧ c.toNat / 2 ^ 32 % 2 ^ 4 = 0 ∧ c.toNat / 2 ^ 8 % 2 ^ 24 = 0) ∨
      (c.toNat / 2 ^ 36 = 3 ∧ c.toNat / 2 ^ 32 % 2 ^ 4 = 0 ∧ c.toNat % 2 ^ 32 = 0) ∨
      c.toNat / 2 ^ 36 = 4 ∨
      (c.toNat / 2 ^ 36 = 5 ∧ c.toNat / 2 ^ 32 % 2 ^ 4 = 0 ∧ c.toNat / 2 ^ 8 % 2 ^ 24 = 0)) ∧
    (∀ i, decode c = .ok i → legal c = true ∧
      ∃ r, opcodeTable.filter (fun r => r.matchesWord c) = [r] ∧ r.mnemonic = i.mnemonic) ∧
    ∀ e, decode c = .error e → legal c = false ∧
      opcodeTable.filter (fun r => r.matchesWord c) = []

/-- 30_encoding.md R75: each command's operands are the word's bits, neither extended, scaled nor
shifted. -/
def Obligations.OperandsAreTheWordsBits : Prop :=
  ∀ (c : CmdWord) (i : Instr), decode c = .ok i →
    match i with
    | .enc v => c.toNat / 2 ^ 36 = 1 ∧ v.toNat = c.toNat % 2 ^ 32
    | .dec b => c.toNat / 2 ^ 36 = 2 ∧ b.toNat = c.toNat % 2 ^ 8
    | .dend => c.toNat / 2 ^ 36 = 3
    | .grp v k => c.toNat / 2 ^ 36 = 4 ∧ v.toNat = c.toNat % 2 ^ 32 ∧
        k.toNat = c.toNat / 2 ^ 32 % 2 ^ 4
    | .cfd b => c.toNat / 2 ^ 36 = 5 ∧ b.toNat = c.toNat % 2 ^ 8

/-- Decoding the word of any command, all of them well formed, gives the command back. -/
def Obligations.DecodeOfEncodeIsTheInstruction : Prop :=
  ∀ i : Instr, i.wellFormed = true ∧ legal (encode i) = true ∧ decode (encode i) = .ok i

/-- The other direction: each legal word is the word of the one command it decodes to, so no bit of it
is dropped. -/
def Obligations.EncodeOfDecodeIsTheWord : Prop :=
  ∀ (c : CmdWord) (i : Instr), decode c = .ok i → encode i = c

/-- 30_encoding.md R86: `word = (OP << 36) | (K << 32) | OPERAND`, and its five examples. -/
def Obligations.WordOfMnemonic : Prop :=
  (∀ v, (encode (.enc v)).toNat = 1 * 2 ^ 36 + v.toNat) ∧
  (∀ b, (encode (.dec b)).toNat = 2 * 2 ^ 36 + b.toNat) ∧
  (encode .dend).toNat = 3 * 2 ^ 36 ∧
  (∀ v k, (encode (.grp v k)).toNat = 4 * 2 ^ 36 + k.toNat * 2 ^ 32 + v.toNat) ∧
  (∀ b, (encode (.cfd b)).toNat = 5 * 2 ^ 36 + b.toNat) ∧
  encode (.enc 0x4000#32) = 0x1000004000#40 ∧ encode (.dec 0x81#8) = 0x2000000081#40 ∧
  encode .dend = 0x3000000000#40 ∧ encode (.grp 0x123456#32 2#4) = 0x4200123456#40 ∧
  encode (.cfd 0xE8#8) = 0x50000000E8#40

/-- The example words of 30_encoding.md R86 decode to the commands they stand for (a sanity check). -/
def Obligations.ExampleWordsDecode : Prop :=
  decode 0x1000004000#40 = .ok (.enc 0x4000#32) ∧ decode 0x2000000081#40 = .ok (.dec 0x81#8) ∧
  decode 0x3000000000#40 = .ok .dend ∧ decode 0x4200123456#40 = .ok (.grp 0x123456#32 2#4) ∧
  decode 0x50000000E8#40 = .ok (.cfd 0xE8#8)

/-! ## The byte-group rule, GRP and CFD -/

/-- 40_group_rule.md R96: group i of v, as a number, as a slice of bits, and 0 from i = 5 on. -/
def Obligations.GroupIsSevenBitsOfTheValue : Prop :=
  ∀ (v : Word) (i : Nat),
    (group v i).toNat = v.toNat / 2 ^ (7 * i) % 128 ∧
    (i ≤ 3 → group v i = v.extractLsb' (7 * i) 7) ∧
    (i = 4 → (group v i).toNat = (v.extractLsb' 28 4).toNat ∧ (group v i).toNat ≤ 0xF) ∧
    (5 ≤ i → group v i = 0#7)

/-- 40_group_rule.md R105: GRP writes group k of v into RESULT, zero-extended, and nothing else, for
every k; every word with OP = 0x4 is legal. -/
def Obligations.GrpWritesGroupToResult : Prop :=
  (∀ (v : Word) (k : BitVec 4) (s : State),
    exec (.grp v k) s =
      .next { s with result := BitVec.ofNat 32 (v.toNat / 2 ^ (7 * k.toNat) % 128) }) ∧
  ∀ c : CmdWord, c.toNat / 2 ^ 36 = 4 → legal c = true

/-- 40_group_rule.md R106: CFD writes bit 7 of b into RESULT and nothing else; an illegal form sets ILL
and leaves RESULT. -/
def Obligations.CfdWritesFlagToResult : Prop :=
  (∀ (b : Byte) (s : State),
    exec (.cfd b) s = .next { s with result := if 128 ≤ b.toNat then 1#32 else 0#32 }) ∧
  ∀ (c : CmdWord) (s : State), c.toNat / 2 ^ 36 = 5 → c.toNat / 2 ^ 8 % 2 ^ 28 ≠ 0 →
    runCommand c s = .next { s with ill := true }

/-- 40_group_rule.md R97: the formula and the source's form of it, bitlen as the least exponent (00_scope.md R10), and the table. -/
def Obligations.EncodedLengthByRange : Prop :=
  ∀ v : Word,
    nbytes v = max 1 ((bitlen v.toNat + 6) / 7) ∧ nbytes v = (bitlen (max v.toNat 1) + 6) / 7 ∧
    v.toNat < 2 ^ bitlen v.toNat ∧ (∀ m, v.toNat < 2 ^ m → bitlen v.toNat ≤ m) ∧
    (v.toNat ≤ 0x7F → nbytes v = 1) ∧
    (0x80 ≤ v.toNat → v.toNat ≤ 0x3FFF → nbytes v = 2) ∧
    (0x4000 ≤ v.toNat → v.toNat ≤ 0x1FFFFF → nbytes v = 3) ∧
    (0x200000 ≤ v.toNat → v.toNat ≤ 0xFFFFFFF → nbytes v = 4) ∧
    (0x10000000 ≤ v.toNat → nbytes v = 5)

/-- 40_group_rule.md R98: one to five groups, nothing above them, and the top one of a positive value
is not 0. -/
def Obligations.TopGroupIsTheMostSignificant : Prop :=
  ∀ v : Word, 1 ≤ nbytes v ∧ nbytes v ≤ 5 ∧ (∀ i, nbytes v ≤ i → group v i = 0#7) ∧
    (v ≠ 0#32 → group v (nbytes v - 1) ≠ 0#7)

/-- 40_group_rule.md R101: VLQ(v) byte by byte, most significant group first, every byte but the last
with its continuation flag set. -/
def Obligations.EncodingIsGroupsMostSignificantFirst : Prop :=
  ∀ v : Word,
    vlq v = ((List.range (nbytes v)).reverse.map fun i =>
      BitVec.ofNat 8 ((if 0 < i then 128 else 0) + v.toNat / 2 ^ (7 * i) % 128)) ∧
    ∃ (front : List Byte) (last : Byte), vlq v = front ++ [last] ∧
      (∀ b ∈ front, cont b = true) ∧ cont last = false

/-- 40_group_rule.md R102 and R103: zero is the one byte 0x00; a positive value never starts with a
payload 0, and no encoding starts with 0x80. -/
def Obligations.EncodingIsCanonical : Prop :=
  vlq 0#32 = [0x00#8] ∧
  (∀ v : Word, v ≠ 0#32 → ∃ b bs, vlq v = b :: bs ∧ payload b ≠ 0#7) ∧
  ∀ (v : Word) (b : Byte) (bs : List Byte), vlq v = b :: bs →
    b ≠ 0x80#8 ∧ (payload b = 0#7 → v = 0#32 ∧ bs = [])

/-- 40_group_rule.md R104: one terminating byte per value, the last; in a concatenation value j ends at
the j-th of them. -/
def Obligations.TerminatingBytesDelimitValues : Prop :=
  (∀ v : Word, ((vlq v).filter fun b => !cont b).length = 1 ∧
    ∃ front last, vlq v = front ++ [last] ∧ cont last = false) ∧
  ∀ (vs : List Word) (j : Nat), j < vs.length →
    ∃ (front : List Byte) (last : Byte) (rest : List Byte),
      encodeSeq (vs.take (j + 1)) = front ++ [last] ∧ cont last = false ∧
      (front.filter fun b => !cont b).length = j ∧ encodeSeq vs = front ++ last :: rest

/-- 30_encoding.md R80 and 20_memory.md R52: a value's encoding in any stream ends at the first byte
whose bit 7 is clear, that byte included; the next value starts right after it. -/
def Obligations.ValueEndsAtFirstClearFlag : Prop :=
  (∀ bs : List Byte,
    (firstEncoding bs = none ↔ ∀ b ∈ bs, cont b = true) ∧
    ∀ e rest, firstEncoding bs = some (e, rest) ↔
      e ++ rest = bs ∧ ∃ front last, e = front ++ [last] ∧
        (∀ b ∈ front, cont b = true) ∧ cont last = false) ∧
  ∀ (v : Word) (rest : List Byte), firstEncoding (vlq v ++ rest) = some (vlq v, rest)

/-! ## The encoder -/

/-- 41_encode.md R116: ENC appends VLQ(v) to ENC_OUT, sets ENC_LEN to NBYTES(v) and writes nothing
else; an illegal form sets ILL and emits nothing. -/
def Obligations.EncAppendsEncoding : Prop :=
  (∀ (v : Word) (s : State),
    exec (.enc v) s =
      .next { s with encOut := s.encOut ++ vlq v, encLen := BitVec.ofNat 3 (nbytes v) } ∧
    (BitVec.ofNat 3 (nbytes v)).toNat = nbytes v) ∧
  ∀ (c : CmdWord) (s : State), c.toNat / 2 ^ 36 = 1 → c.toNat / 2 ^ 32 % 2 ^ 4 ≠ 0 →
    runCommand c s = .next { s with ill := true }

/-- 41_encode.md R120 and R121: the ENC commands of a sequence append exactly the encodings of its
values, in order and with nothing between; an empty sequence appends nothing. Of the rest only ENC_LEN
changes, to the last value's length. -/
def Obligations.EncodeSequenceAppendsConcatenation : Prop :=
  encodeSeq [] = [] ∧ (∀ v vs, encodeSeq (v :: vs) = vlq v ++ encodeSeq vs) ∧
  ∀ (vs : List Word) (s : State),
    runAll (encodeCommands vs) s =
      .next { s with
        encOut := s.encOut ++ encodeSeq vs
        encLen := (vs.getLast?.map fun v => BitVec.ofNat 3 (nbytes v)).getD s.encLen }

/-- 41_encode.md R122: the length law, for one ENC and for a sequence. -/
def Obligations.EncodedLengthLaw : Prop :=
  (∀ (v : Word) (s : State), ∃ t, exec (.enc v) s = .next t ∧
    t.encOut.length = s.encOut.length + nbytes v ∧ t.encLen.toNat = nbytes v) ∧
  ∀ vs : List Word, (encodeSeq vs).length = (vs.map nbytes).sum

/-- 41_encode.md R117 and R123: the bytes an ENC sequence appends do not depend on the state. -/
def Obligations.EncodeIgnoresState : Prop :=
  ∀ (vs : List Word) (s s' : State), ∃ t t' bs,
    runAll (encodeCommands vs) s = .next t ∧ runAll (encodeCommands vs) s' = .next t' ∧
    t.encOut = s.encOut ++ bs ∧ t'.encOut = s'.encOut ++ bs

/-! ## The decoder -/

/-- 42_decode.md R132: DEC, path by path, in numbers: a failed transaction, a continuing byte, a
terminating byte within 32 bits, a terminating byte past them. Each path is the whole next state. An
illegal form sets ILL only. -/
def Obligations.DecConsumesOneByte : Prop :=
  (∀ (b : Byte) (s : State),
    (s.decErr = true → exec (.dec b) s = .next s) ∧
    (s.decErr = false → 128 ≤ b.toNat → exec (.dec b) s =
      .next { s with
        decAcc := BitVec.ofNat 32 (128 * s.decAcc.toNat + b.toNat % 128)
        decOvf := s.decOvf || decide (2 ^ 25 ≤ s.decAcc.toNat)
        decMid := true }) ∧
    (s.decErr = false → b.toNat < 128 → s.decOvf = false → s.decAcc.toNat < 2 ^ 25 →
      exec (.dec b) s =
      .next { s with
        decOut := s.decOut ++ [BitVec.ofNat 32 (128 * s.decAcc.toNat + b.toNat)]
        decNval := BitVec.ofNat 32 (s.decNval.toNat + 1)
        decAcc := 0#32, decOvf := false, decMid := false }) ∧
    (s.decErr = false → b.toNat < 128 → (s.decOvf = true ∨ 2 ^ 25 ≤ s.decAcc.toNat) →
      exec (.dec b) s =
      .next { s with decErr := true, decAcc := 0#32, decOvf := false, decMid := false })) ∧
  ∀ (c : CmdWord) (s : State), c.toNat / 2 ^ 36 = 2 → c.toNat / 2 ^ 8 % 2 ^ 28 ≠ 0 →
    runCommand c s = .next { s with ill := true }

/-- 42_decode.md R134: DEND's three codes, its report and the clearing, each the whole next state. An
illegal form sets ILL only, so the transaction stays open. -/
def Obligations.DendReportsAndClears : Prop :=
  (∀ s : State,
    exec .dend s = .next { s with
      dendCode := if s.decErr = true then .overflow else if s.decMid = true then .incomplete else .ok
      dendNval := s.decNval, decNval := 0#32, decAcc := 0#32
      decOvf := false, decMid := false, decErr := false }) ∧
  ∀ (c : CmdWord) (s : State), c.toNat / 2 ^ 36 = 3 → c.toNat % 2 ^ 36 ≠ 0 →
    runCommand c s = .next { s with ill := true }

/-- 42_decode.md R135: an empty transaction is OK with no value; so is a second DEND. -/
def Obligations.EmptyTransactionIsOk : Prop :=
  (∀ s : State, ContextClear s → ∃ t, runAll (decodeTransaction []) s = .next t ∧
    t.dendCode = .ok ∧ t.dendNval = 0#32 ∧ transactionResult s t = some (.ok [])) ∧
  ∀ s : State, ∃ t, runAll [commandOf .dend, commandOf .dend] s = .next t ∧
    t.dendCode = .ok ∧ t.dendNval = 0#32

/-- 42_decode.md R131: DEND and the RST step leave the decoder context clear, and it is clear at
launch. -/
def Obligations.DendAndResetLeaveContextClear : Prop :=
  ContextClear State.reset ∧ (∀ s : State, ∃ t, exec .dend s = .next t ∧ ContextClear t) ∧
  ∀ (s : State) (rest : List HostInput), s.input = .reset :: rest →
    ∃ t, step s = .next t ∧ ContextClear t

/-- 42_decode.md R133: inside a value, DEC_ACC and DEC_OVF are the source's unbounded accumulator A:
A modulo 2^32, and whether A is above 0xFFFFFFFF. A terminating byte emits A itself when A is at most
0xFFFFFFFF, and nothing otherwise. -/
def Obligations.OverflowTrackingIsExact : Prop :=
  ∀ (bs : List Byte) (s : State), (∀ b ∈ bs, cont b = true) →
    s.decErr = false → s.decMid = false → s.decAcc = 0#32 → s.decOvf = false →
    (bs ≠ [] → ∃ t, runAll (decCommands bs) s = .next t ∧
      (t.decOvf = true ↔ bs.foldl accumulate 0 > 0xFFFFFFFF) ∧
      t.decAcc.toNat = bs.foldl accumulate 0 % 2 ^ 32 ∧
      t = { s with decAcc := t.decAcc, decOvf := t.decOvf, decMid := true }) ∧
    ∀ b : Byte, cont b = false →
      (accumulate (bs.foldl accumulate 0) b ≤ 0xFFFFFFFF → ∃ w : Word,
        w.toNat = accumulate (bs.foldl accumulate 0) b ∧
        runAll (decCommands (bs ++ [b])) s =
          .next { s with decOut := s.decOut ++ [w], decNval := s.decNval + 1#32 }) ∧
      (accumulate (bs.foldl accumulate 0) b > 0xFFFFFFFF →
        runAll (decCommands (bs ++ [b])) s = .next { s with decErr := true })

/-- 42_decode.md R138: from a clear context, a decode transaction on any bytes has the result of
`decode_ref`; it takes one step per byte and one for DEND, leaves the context clear and changes
nothing of the encoder, RESULT or ILL. -/
def Obligations.TransactionComputesDecodeRef : Prop :=
  ∀ (bs : List Byte) (s : State), ContextClear s →
    ∃ t, runAll (decodeTransaction bs) s = .next t ∧
      (transactionResult s t).map (fun r => r.map fun ws => ws.map BitVec.toNat) =
        some (decodeRef bs) ∧
      ContextClear t ∧ t.encOut = s.encOut ∧ t.encLen = s.encLen ∧ t.result = s.result ∧
      t.ill = s.ill ∧ t.rdData = s.rdData ∧ t.input = s.input

/-- 42_decode.md R137 and 10_state.md R35: DEND_NVAL counts the words the transaction appended, modulo
2^32. With 20_memory.md R64: below 2^32 bytes, dropping the last DEND_NVAL words of a failed
transaction leaves DEC_OUT as it was before it, and a successful one keeps all its words. -/
def Obligations.DendNvalCountsTransactionWords : Prop :=
  ∀ (bs : List Byte) (s : State), ContextClear s →
    ∃ (t : State) (ws : List Word), runAll (decodeTransaction bs) s = .next t ∧
      t.decOut = s.decOut ++ ws ∧ wordsBetween s t = ws ∧
      t.dendNval = BitVec.ofNat 32 ws.length ∧
      (bs.length < 2 ^ 32 → t.dendNval.toNat = ws.length ∧
        (t.dendCode = .ok → keptAfterDend t = s.decOut ++ ws) ∧
        (t.dendCode ≠ .ok → keptAfterDend t = s.decOut))

/-- 42_decode.md R143: decoding what the encoder emitted gives the values back, for `decode_ref` and
for the machine: the ENC commands of `vs`, then a transaction on the bytes they appended. -/
def Obligations.RoundTripOfEncodeAndDecode : Prop :=
  ∀ vs : List Word,
    decodeRef (encodeSeq vs) = .ok (vs.map BitVec.toNat) ∧
    ∀ s : State, ContextClear s →
      ∃ u t, runAll (encodeCommands vs) s = .next u ∧
        runAll (decodeTransaction (u.encOut.drop s.encOut.length)) u = .next t ∧
        transactionResult u t = some (.ok vs)

/-- 42_decode.md R139: a stream whose last byte has its continuation flag set is incomplete, whatever
the value so far, unless a value before had overflowed (R141); [0x80] alone is incomplete with DEC_ACC
at 0. -/
def Obligations.UnterminatedStreamIsIncomplete : Prop :=
  (∀ (bs : List Byte) (b : Byte) (s : State), ContextClear s → cont b = true →
    ∃ t, runAll (decodeTransaction (bs ++ [b])) s = .next t ∧
      (decodeRef bs ≠ .error .overflow →
        transactionResult s t = some (.error .incompleteSequence)) ∧
      (decodeRef bs = .error .overflow → transactionResult s t = some (.error .overflow))) ∧
  ∀ s : State, ContextClear s → ∃ u t, runAll (decCommands [0x80#8]) s = .next u ∧
    u.decAcc = 0#32 ∧ u.decMid = true ∧ runAll (decodeTransaction [0x80#8]) s = .next t ∧
    transactionResult s t = some (.error .incompleteSequence)

/-- 42_decode.md R140: any number of 0x80 bytes before a value's encoding, wherever in the stream the
value starts, adds nothing; and R140's three examples. -/
def Obligations.LeadingZeroGroupsAddNothing : Prop :=
  (∀ (front bs : List Byte) (n : Nat) (s : State), ContextClear s →
    (∀ b, front.getLast? = some b → cont b = false) → bs ≠ [] →
    ∃ t t', runAll (decodeTransaction (front ++ List.replicate n 0x80#8 ++ bs)) s = .next t ∧
      runAll (decodeTransaction (front ++ bs)) s = .next t' ∧
      transactionResult s t = transactionResult s t') ∧
  decodeRef [0x80#8, 0x00#8] = .ok [0] ∧
  decodeRef [0x80#8, 0x80#8, 0x80#8, 0x80#8, 0x80#8, 0x80#8, 0x01#8] = .ok [1] ∧
  decodeRef [0x80#8, 0x8F#8, 0xFF#8, 0xFF#8, 0xFF#8, 0x7F#8] = .ok [0xFFFFFFFF]

/-- 42_decode.md R141: once STATUS.DEC_ERR is 1 the rest of the transaction is ignored, whatever its
bytes, and DEND reports OVERFLOW; R141's example. -/
def Obligations.BytesAfterOverflowAreIgnored : Prop :=
  (∀ (bs : List Byte) (s : State), s.decErr = true →
    runAll (decCommands bs) s = .next s ∧
    ∃ t, runAll (decodeTransaction bs) s = .next t ∧ t.dendCode = .overflow ∧
      t.decOut = s.decOut ∧ t.dendNval = s.decNval) ∧
  ∀ s : State, ContextClear s →
    ∃ t, runAll (decodeTransaction
        [0x90#8, 0x80#8, 0x80#8, 0x80#8, 0x00#8, 0x05#8, 0x81#8]) s = .next t ∧
      transactionResult s t = some (.error .overflow) ∧ t.decOut = s.decOut

/-- 42_decode.md R147: the three overflow cases, from every clear context, the last with its word 0
emitted and then discarded by the host. What the host then holds is the model's reading of 20_memory.md
R64 (log entry 15). -/
def Obligations.OverflowCasesFailTheTransaction : Prop :=
  ∀ s : State, ContextClear s →
    ∃ t₁ t₂ t₃,
      runAll (decodeTransaction [0x90#8, 0x80#8, 0x80#8, 0x80#8, 0x00#8]) s = .next t₁ ∧
      transactionResult s t₁ = some (.error .overflow) ∧
      [0x90#8, 0x80#8, 0x80#8, 0x80#8, 0x00#8].foldl accumulate 0 = 2 ^ 32 ∧
      runAll (decodeTransaction [0x81#8, 0x80#8, 0x80#8, 0x80#8, 0x80#8, 0x00#8]) s = .next t₂ ∧
      transactionResult s t₂ = some (.error .overflow) ∧
      [0x81#8, 0x80#8, 0x80#8, 0x80#8, 0x80#8, 0x00#8].foldl accumulate 0 = 2 ^ 35 ∧
      runAll (decodeTransaction [0x00#8, 0x90#8, 0x80#8, 0x80#8, 0x80#8, 0x00#8]) s = .next t₃ ∧
      transactionResult s t₃ = some (.error .overflow) ∧
      t₃.decOut = s.decOut ++ [0#32] ∧ keptAfterDend t₃ = s.decOut

/-- 42_decode.md R146: the largest value's accumulator, byte by byte, and that DEC_OVF is never set on
a valid encoding of a 32-bit value. -/
def Obligations.ValidEncodingsNeverOverflow : Prop :=
  (∀ s : State, ContextClear s →
    ∃ t₁ t₂ t₃ t₄,
      runAll (decCommands [0x8F#8]) s = .next t₁ ∧ t₁.decAcc = 0x0F#32 ∧
      runAll (decCommands [0x8F#8, 0xFF#8]) s = .next t₂ ∧ t₂.decAcc = 0x7FF#32 ∧
      runAll (decCommands [0x8F#8, 0xFF#8, 0xFF#8]) s = .next t₃ ∧ t₃.decAcc = 0x3FFFF#32 ∧
      runAll (decCommands [0x8F#8, 0xFF#8, 0xFF#8, 0xFF#8]) s = .next t₄ ∧
      t₄.decAcc = 0x1FFFFFF#32 ∧ carry t₄.decAcc = 0#7 ∧ accNext t₄.decAcc 0x7F#8 = 0xFFFFFFFF#32) ∧
  ∀ (v : Word) (k : Nat) (s : State), ContextClear s →
    ∃ t, runAll (decCommands ((vlq v).take k)) s = .next t ∧ t.decOvf = false ∧ t.decErr = false

/-- 42_decode.md R145: two transactions on the same bytes, from any two clear contexts, give the same
words, DEND_CODE and DEND_NVAL. -/
def Obligations.TransactionIsRepeatable : Prop :=
  ∀ (bs : List Byte) (s s' : State), ContextClear s → ContextClear s' →
    ∃ t t' ws, runAll (decodeTransaction bs) s = .next t ∧
      runAll (decodeTransaction bs) s' = .next t' ∧
      t.decOut = s.decOut ++ ws ∧ t'.decOut = s'.decOut ++ ws ∧
      t.dendCode = t'.dendCode ∧ t.dendNval = t'.dendNval

/-- 42_decode.md R144: DEC and DEND write none of ENC_LEN, ENC_OUT and RESULT, nor ILL, and read
none of them: what they do to the decoder is the same in two states that agree on the decoder. -/
def Obligations.DecoderDoesNotTouchEncoder : Prop :=
  ∀ (i : Instr) (s s' : State), (i = .dend ∨ ∃ b, i = .dec b) → SameDecoder s s' →
    ∃ t t', exec i s = .next t ∧ exec i s' = .next t' ∧ SameDecoder t t' ∧
      t.encLen = s.encLen ∧ t.encOut = s.encOut ∧ t.result = s.result ∧ t.ill = s.ill ∧
      t.rdData = s.rdData ∧ t.input = s.input

/-! ## The whole machine -/

/-- 20_memory.md R62 and 60_exceptions.md R166: between two resets the decoder is a function of the DEC
and DEND words alone: ENC, GRP, CFD, illegal words and register reads, wherever they stand among them,
change nothing of its context, its report or DEC_OUT. Nor do ENC, GRP and CFD read it: with the
decoder of another state in its place, their effect is the same. -/
def Obligations.OtherInputsDoNotTouchDecoder : Prop :=
  (∀ (xs : List HostInput) (s s' : State), .reset ∉ xs → SameDecoder s s' →
    ∃ t t', runAll xs s = .next t ∧
      runAll (xs.filter fun x => x.isDecoder) s' = .next t' ∧ SameDecoder t t') ∧
  ∀ (i : Instr) (s s' : State),
    ((∃ v, i = .enc v) ∨ (∃ v k, i = .grp v k) ∨ ∃ b, i = .cfd b) →
    ∃ t, exec i s = .next t ∧
      exec i { s with
        decAcc := s'.decAcc, decMid := s'.decMid, decOvf := s'.decOvf, decErr := s'.decErr
        decNval := s'.decNval, dendNval := s'.dendNval, dendCode := s'.dendCode } =
      .next { t with
        decAcc := s'.decAcc, decMid := s'.decMid, decOvf := s'.decOvf, decErr := s'.decErr
        decNval := s'.decNval, dendNval := s'.dendNval, dendCode := s'.dendCode }

/-- 20_memory.md R65 and 42_decode.md R136: when the host ends every transaction, whatever else it sends
in between, the context is clear again, so each transaction starts from a clear one. -/
def Obligations.EndedTransactionsLeaveContextClear : Prop :=
  ∀ (xs : List HostInput) (s : State), ContextClear s → leavesOpen false xs = false →
    ∃ t, runAll xs s = .next t ∧ ContextClear t

/-- 10_state.md R39's invariants at the launch state. -/
def Obligations.InvariantsHoldAtReset : Prop := Inv State.reset

/-- 10_state.md R39's invariants are kept by every step from every state that meets them. -/
def Obligations.StepKeepsInvariants : Prop :=
  ∀ s t : State, Inv s → step s = .next t → Inv t

/-- 10_state.md R39: the invariants hold in every state reachable from reset, whatever the host sends. -/
def Obligations.ReachableStatesMeetInvariants : Prop := ∀ s : State, Reachable s → Inv s

/-- 20_memory.md R49: no step, a reset included, changes or removes an element of ENC_OUT or DEC_OUT,
over any number of steps; a step appends at most five bytes and one word, never both. -/
def Obligations.StreamsAreAppendOnly : Prop :=
  (∀ (n : Nat) (s t : State), run n s = .next t →
    s.encOut <+: t.encOut ∧ s.decOut <+: t.decOut) ∧
  ∀ s t : State, step s = .next t →
    t.encOut.length ≤ s.encOut.length + 5 ∧ t.decOut.length ≤ s.decOut.length + 1 ∧
    (t.encOut = s.encOut ∨ t.decOut = s.decOut)

/-- 10_state.md R30: ILL is set by every illegal word, cleared by reset only, and by nothing else
changed. -/
def Obligations.IllIsSetByIllegalWordsClearedByReset : Prop :=
  State.reset.ill = false ∧
  ∀ s t : State, step s = .next t →
    (t.ill = true ↔
      (∃ c rest, s.input = .command c :: rest ∧ legal c = false) ∨
      (s.ill = true ∧ ∀ rest, s.input ≠ .reset :: rest))

/-- 10_state.md R26 to R30 and R32 to R36, 20_memory.md R49 and R53: in a step that is no reset, which
commands can change each state element and each stream. The record of register reads, and that only a
read changes it, is the model's choice (log entry 4). -/
def Obligations.OnlyTheirCommandsWriteRegisters : Prop :=
  ∀ (s t : State) (x : HostInput) (rest : List HostInput),
    s.input = x :: rest → step s = .next t → x ≠ .reset →
    (t.result ≠ s.result →
      ∃ c i, x = .command c ∧ decode c = .ok i ∧ ((∃ v k, i = .grp v k) ∨ ∃ b, i = .cfd b)) ∧
    (t.encLen ≠ s.encLen ∨ t.encOut ≠ s.encOut →
      ∃ c v, x = .command c ∧ decode c = .ok (.enc v)) ∧
    (t.dendCode ≠ s.dendCode ∨ t.dendNval ≠ s.dendNval →
      ∃ c, x = .command c ∧ decode c = .ok .dend) ∧
    (t.decAcc ≠ s.decAcc ∨ t.decMid ≠ s.decMid ∨ t.decOvf ≠ s.decOvf ∨ t.decErr ≠ s.decErr ∨
        t.decNval ≠ s.decNval →
      ∃ c i, x = .command c ∧ decode c = .ok i ∧ (i = .dend ∨ ∃ b, i = .dec b)) ∧
    (t.ill ≠ s.ill → ∃ c, x = .command c ∧ legal c = false) ∧
    (t.decOut ≠ s.decOut → ∃ c b, x = .command c ∧ decode c = .ok (.dec b)) ∧
    (t.rdData ≠ s.rdData → ∃ idx, x = .readReg idx)

/-! ## The assembler -/

/-- 30_encoding.md R82 and R85: a line with its operands in range produces words, all legal unless it
is `.word40`, which gives its word unchanged; any other line is an error and no word. -/
def Obligations.MnemonicsWriteOnlyLegalWords : Prop :=
  (∀ l : AsmLine, l.wellFormed = false → assembleLine l = .error .outOfRange) ∧
  (∀ l : AsmLine, l.wellFormed = true → (∀ w, l ≠ .word40 w) →
    ∃ ws, assembleLine l = .ok ws ∧ ∀ c ∈ ws, legal c = true) ∧
  ∀ w : Nat, w < 2 ^ 40 → ∃ c : CmdWord, assembleLine (.word40 w) = .ok [c] ∧ c.toNat = w

/-- 30_encoding.md R83 and R84: the pseudo-instructions expand to `enc v1` ... `enc vn`, and to
`dec b1` ... `dec bn` then `dend`. That the two sides agree on lines with an operand out of range too
rests on the model's choice that one error leaves no word of a text (log entry 10). -/
def Obligations.PseudoInstructionsExpand : Prop :=
  (∀ vs : List Nat, assembleLine (.encode vs) = assembleLines (vs.map .enc)) ∧
  ∀ bs : List Nat, assembleLine (.decode bs) = assembleLines (bs.map .dec ++ [.dend])

/-- 30_encoding.md R82 and R86: a mnemonic line in range gives the one word that decodes to its command
with its operands as written. -/
def Obligations.AssembledMnemonicDecodesToItsCommand : Prop :=
  (∀ v, v ≤ 0xFFFFFFFF → ∃ c x, assembleLine (.enc v) = .ok [c] ∧ decode c = .ok (.enc x) ∧ x.toNat = v) ∧
  (∀ b, b ≤ 0xFF → ∃ c x, assembleLine (.dec b) = .ok [c] ∧ decode c = .ok (.dec x) ∧ x.toNat = b) ∧
  (∃ c, assembleLine .dend = .ok [c] ∧ decode c = .ok .dend) ∧
  (∀ v k, v ≤ 0xFFFFFFFF → k ≤ 15 → ∃ c x y, assembleLine (.grp v k) = .ok [c] ∧
    decode c = .ok (.grp x y) ∧ x.toNat = v ∧ y.toNat = k) ∧
  ∀ b, b ≤ 0xFF → ∃ c x, assembleLine (.cfd b) = .ok [c] ∧ decode c = .ok (.cfd x) ∧ x.toNat = b

/-- 30_encoding.md R81: a comment runs from `;` to the end of the line, and the letters' case does not
matter; a line of text gives one command or none. -/
def Obligations.CommentsAndCaseDoNotMatter : Prop :=
  (∀ line comment : List Char, ';' ∉ line → readLine (line ++ ';' :: comment) = readLine line) ∧
  ∀ line : List Char, readLine (line.map lowerChar) = readLine line

/-- 30_encoding.md R82: a number written in decimal digits, or in hexadecimal digits after `0x`, is read
as that number. -/
def Obligations.NumbersAreReadInBothBases : Prop :=
  ∀ n : Nat, readNumber (Nat.toDigits 10 n) = some n ∧
    readNumber ('0' :: 'x' :: Nat.toDigits 16 n) = some n
end

