-- ==== Sys2Proof/Laws/Groups.lean ====
section
/-! SUPPORT. The byte-group rule as arithmetic on natural numbers: one lemma per function of
Machine/Operands.lean and Machine/Flags.lean, which later proofs cite instead of unfolding it. -/

namespace Sys2Proof.Machine

theorem group_toNat (v : Word) (i : Nat) : (group v i).toNat = v.toNat / 2 ^ (7 * i) % 128 := by
  have h : (v >>> (7 * i) &&& 0x7F#32).toNat = v.toNat / 2 ^ (7 * i) % 128 := by
    rw [BitVec.toNat_and, BitVec.toNat_ushiftRight, Nat.shiftRight_eq_div_pow]
    exact Nat.and_two_pow_sub_one_eq_mod _ 7
  rw [group, BitVec.toNat_setWidth, h]
  exact Nat.mod_eq_of_lt (Nat.mod_lt _ (by norm_num))

theorem payload_toNat (b : Byte) : (payload b).toNat = b.toNat % 128 := by
  simp [payload, BitVec.extractLsb'_toNat]

theorem cont_eq (b : Byte) : cont b = decide (128 ≤ b.toNat) := by
  have h : ∀ b : BitVec 8, b.getLsbD 7 = decide (128 ≤ b.toNat) := by decide
  exact h b

theorem encByte_toNat (v : Word) (i : Nat) :
    (encByte v i).toNat = (if 0 < i then 128 else 0) + v.toNat / 2 ^ (7 * i) % 128 := by
  have key : ∀ g : BitVec 7, (0x80#8 ||| g.setWidth 8).toNat = 128 + g.toNat ∧
      (0x00#8 ||| g.setWidth 8).toNat = g.toNat := by decide
  rw [← group_toNat]
  by_cases hi : 0 < i
  · simpa [encByte, hi] using (key (group v i)).1
  · simpa [encByte, hi] using (key (group v i)).2

theorem payload_encByte (v : Word) (i : Nat) : payload (encByte v i) = group v i := by
  apply BitVec.eq_of_toNat_eq
  rw [payload_toNat, encByte_toNat, group_toNat]
  split <;> omega

theorem cont_encByte (v : Word) (i : Nat) : cont (encByte v i) = decide (0 < i) := by
  have := Nat.mod_lt (v.toNat / 2 ^ (7 * i)) (by norm_num : 128 > 0)
  rw [cont_eq, encByte_toNat]
  by_cases hi : 0 < i <;> simp [hi]; omega

theorem accNext_toNat (acc : Word) (b : Byte) :
    (accNext acc b).toNat = (128 * acc.toNat + (payload b).toNat) % 2 ^ 32 := by
  have hb : (payload b).toNat < 2 ^ 7 := (payload b).isLt
  have hs : (acc <<< 7).toNat = 2 ^ 7 * (acc.toNat % 2 ^ 25) := by
    rw [BitVec.toNat_shiftLeft, Nat.shiftLeft_eq]
    omega
  have hp : ((payload b).setWidth 32).toNat = (payload b).toNat := by
    simp only [BitVec.toNat_setWidth]; omega
  rw [accNext, BitVec.toNat_or, hs, hp, ← Nat.two_pow_add_eq_or_of_lt hb]
  omega

theorem carry_ne_zero (acc : Word) : (carry acc != 0#7) = decide (2 ^ 25 ≤ acc.toNat) := by
  have h : (carry acc).toNat = acc.toNat / 2 ^ 25 := by
    simp only [carry, BitVec.extractLsb'_toNat, Nat.shiftRight_eq_div_pow]
    have := acc.isLt
    omega
  by_cases h0 : carry acc = 0#7
  · have : (carry acc).toNat = 0 := by rw [h0]; rfl
    simp [h0]; omega
  · have : (carry acc).toNat ≠ 0 := fun e => h0 (BitVec.eq_of_toNat_eq (by simpa using e))
    have hb : (carry acc != 0#7) = true := by simpa using h0
    rw [hb, eq_comm, decide_eq_true_iff]; omega

theorem lt_two_pow_bitlen (a : Nat) : a < 2 ^ bitlen a := by
  by_cases h : a = 0
  · simp [bitlen, h]
  · simpa [bitlen, h] using Nat.lt_log2_self (n := a)

theorem bitlen_le {a m : Nat} (h : a < 2 ^ m) : bitlen a ≤ m := by
  by_cases h0 : a = 0
  · simp [bitlen, h0]
  · simpa [bitlen, h0] using (Nat.log2_lt h0).2 h

/-- NBYTES(v) is the least positive number of groups that holds v. -/
theorem lt_pow_nbytes (v : Word) : v.toNat < 2 ^ (7 * nbytes v) := by
  refine lt_of_lt_of_le (lt_two_pow_bitlen _) (Nat.pow_le_pow_right (by norm_num) ?_)
  simp only [nbytes, ceilDiv]
  omega

theorem nbytes_le {v : Word} {m : Nat} (hm : 1 ≤ m) (h : v.toNat < 2 ^ (7 * m)) : nbytes v ≤ m := by
  have := bitlen_le h
  simp only [nbytes, ceilDiv]
  omega

theorem one_le_nbytes (v : Word) : 1 ≤ nbytes v := by simp [nbytes]

theorem nbytes_le_five (v : Word) : nbytes v ≤ 5 :=
  nbytes_le (by norm_num) (lt_of_lt_of_le v.isLt (by norm_num))

@[simp] theorem encBytesDown_length (v : Word) (n : Nat) : (encBytesDown v n).length = n := by
  induction n with
  | zero => rfl
  | succ n ih => simp [encBytesDown, ih]

end Sys2Proof.Machine
end

