-- ==== Sys2Proof/Laws/State.lean ====
section
/-! SUPPORT. What each named operation does to each field of the state: one lemma per field per
operation, so that no later proof unfolds a record update. -/

namespace Sys2Proof.Machine

@[simp] theorem emitEnc_decAcc (b : Byte) (s : State) : (emitEnc b s).decAcc = s.decAcc := rfl
@[simp] theorem emitEnc_decMid (b : Byte) (s : State) : (emitEnc b s).decMid = s.decMid := rfl
@[simp] theorem emitEnc_decOvf (b : Byte) (s : State) : (emitEnc b s).decOvf = s.decOvf := rfl
@[simp] theorem emitEnc_decErr (b : Byte) (s : State) : (emitEnc b s).decErr = s.decErr := rfl
@[simp] theorem emitEnc_dendCode (b : Byte) (s : State) : (emitEnc b s).dendCode = s.dendCode := rfl
@[simp] theorem emitEnc_ill (b : Byte) (s : State) : (emitEnc b s).ill = s.ill := rfl
@[simp] theorem emitEnc_result (b : Byte) (s : State) : (emitEnc b s).result = s.result := rfl
@[simp] theorem emitEnc_encLen (b : Byte) (s : State) : (emitEnc b s).encLen = s.encLen := rfl
@[simp] theorem emitEnc_decNval (b : Byte) (s : State) : (emitEnc b s).decNval = s.decNval := rfl
@[simp] theorem emitEnc_dendNval (b : Byte) (s : State) : (emitEnc b s).dendNval = s.dendNval := rfl
@[simp] theorem emitEnc_encOut (b : Byte) (s : State) : (emitEnc b s).encOut = s.encOut ++ [b] := rfl
@[simp] theorem emitEnc_decOut (b : Byte) (s : State) : (emitEnc b s).decOut = s.decOut := rfl
@[simp] theorem emitEnc_rdData (b : Byte) (s : State) : (emitEnc b s).rdData = s.rdData := rfl
@[simp] theorem emitEnc_input (b : Byte) (s : State) : (emitEnc b s).input = s.input := rfl

@[simp] theorem emitDec_decAcc (w : Word) (s : State) : (emitDec w s).decAcc = s.decAcc := rfl
@[simp] theorem emitDec_decMid (w : Word) (s : State) : (emitDec w s).decMid = s.decMid := rfl
@[simp] theorem emitDec_decOvf (w : Word) (s : State) : (emitDec w s).decOvf = s.decOvf := rfl
@[simp] theorem emitDec_decErr (w : Word) (s : State) : (emitDec w s).decErr = s.decErr := rfl
@[simp] theorem emitDec_dendCode (w : Word) (s : State) : (emitDec w s).dendCode = s.dendCode := rfl
@[simp] theorem emitDec_ill (w : Word) (s : State) : (emitDec w s).ill = s.ill := rfl
@[simp] theorem emitDec_result (w : Word) (s : State) : (emitDec w s).result = s.result := rfl
@[simp] theorem emitDec_encLen (w : Word) (s : State) : (emitDec w s).encLen = s.encLen := rfl
@[simp] theorem emitDec_decNval (w : Word) (s : State) : (emitDec w s).decNval = s.decNval := rfl
@[simp] theorem emitDec_dendNval (w : Word) (s : State) : (emitDec w s).dendNval = s.dendNval := rfl
@[simp] theorem emitDec_encOut (w : Word) (s : State) : (emitDec w s).encOut = s.encOut := rfl
@[simp] theorem emitDec_decOut (w : Word) (s : State) : (emitDec w s).decOut = s.decOut ++ [w] := rfl
@[simp] theorem emitDec_rdData (w : Word) (s : State) : (emitDec w s).rdData = s.rdData := rfl
@[simp] theorem emitDec_input (w : Word) (s : State) : (emitDec w s).input = s.input := rfl

@[simp] theorem setResult_decAcc (w : Word) (s : State) : (setResult w s).decAcc = s.decAcc := rfl
@[simp] theorem setResult_decMid (w : Word) (s : State) : (setResult w s).decMid = s.decMid := rfl
@[simp] theorem setResult_decOvf (w : Word) (s : State) : (setResult w s).decOvf = s.decOvf := rfl
@[simp] theorem setResult_decErr (w : Word) (s : State) : (setResult w s).decErr = s.decErr := rfl
@[simp] theorem setResult_dendCode (w : Word) (s : State) : (setResult w s).dendCode = s.dendCode := rfl
@[simp] theorem setResult_ill (w : Word) (s : State) : (setResult w s).ill = s.ill := rfl
@[simp] theorem setResult_result (w : Word) (s : State) : (setResult w s).result = w := rfl
@[simp] theorem setResult_encLen (w : Word) (s : State) : (setResult w s).encLen = s.encLen := rfl
@[simp] theorem setResult_decNval (w : Word) (s : State) : (setResult w s).decNval = s.decNval := rfl
@[simp] theorem setResult_dendNval (w : Word) (s : State) : (setResult w s).dendNval = s.dendNval := rfl
@[simp] theorem setResult_encOut (w : Word) (s : State) : (setResult w s).encOut = s.encOut := rfl
@[simp] theorem setResult_decOut (w : Word) (s : State) : (setResult w s).decOut = s.decOut := rfl
@[simp] theorem setResult_rdData (w : Word) (s : State) : (setResult w s).rdData = s.rdData := rfl
@[simp] theorem setResult_input (w : Word) (s : State) : (setResult w s).input = s.input := rfl

@[simp] theorem setEncLen_decAcc (n : Nat) (s : State) : (setEncLen n s).decAcc = s.decAcc := rfl
@[simp] theorem setEncLen_decMid (n : Nat) (s : State) : (setEncLen n s).decMid = s.decMid := rfl
@[simp] theorem setEncLen_decOvf (n : Nat) (s : State) : (setEncLen n s).decOvf = s.decOvf := rfl
@[simp] theorem setEncLen_decErr (n : Nat) (s : State) : (setEncLen n s).decErr = s.decErr := rfl
@[simp] theorem setEncLen_dendCode (n : Nat) (s : State) : (setEncLen n s).dendCode = s.dendCode := rfl
@[simp] theorem setEncLen_ill (n : Nat) (s : State) : (setEncLen n s).ill = s.ill := rfl
@[simp] theorem setEncLen_result (n : Nat) (s : State) : (setEncLen n s).result = s.result := rfl
@[simp] theorem setEncLen_encLen (n : Nat) (s : State) : (setEncLen n s).encLen = BitVec.ofNat 3 n := rfl
@[simp] theorem setEncLen_decNval (n : Nat) (s : State) : (setEncLen n s).decNval = s.decNval := rfl
@[simp] theorem setEncLen_dendNval (n : Nat) (s : State) : (setEncLen n s).dendNval = s.dendNval := rfl
@[simp] theorem setEncLen_encOut (n : Nat) (s : State) : (setEncLen n s).encOut = s.encOut := rfl
@[simp] theorem setEncLen_decOut (n : Nat) (s : State) : (setEncLen n s).decOut = s.decOut := rfl
@[simp] theorem setEncLen_rdData (n : Nat) (s : State) : (setEncLen n s).rdData = s.rdData := rfl
@[simp] theorem setEncLen_input (n : Nat) (s : State) : (setEncLen n s).input = s.input := rfl

@[simp] theorem continueValue_decAcc (acc : Word) (ovf : Bool) (s : State) : (continueValue acc ovf s).decAcc = acc := rfl
@[simp] theorem continueValue_decMid (acc : Word) (ovf : Bool) (s : State) : (continueValue acc ovf s).decMid = true := rfl
@[simp] theorem continueValue_decOvf (acc : Word) (ovf : Bool) (s : State) : (continueValue acc ovf s).decOvf = ovf := rfl
@[simp] theorem continueValue_decErr (acc : Word) (ovf : Bool) (s : State) : (continueValue acc ovf s).decErr = s.decErr := rfl
@[simp] theorem continueValue_dendCode (acc : Word) (ovf : Bool) (s : State) : (continueValue acc ovf s).dendCode = s.dendCode := rfl
@[simp] theorem continueValue_ill (acc : Word) (ovf : Bool) (s : State) : (continueValue acc ovf s).ill = s.ill := rfl
@[simp] theorem continueValue_result (acc : Word) (ovf : Bool) (s : State) : (continueValue acc ovf s).result = s.result := rfl
@[simp] theorem continueValue_encLen (acc : Word) (ovf : Bool) (s : State) : (continueValue acc ovf s).encLen = s.encLen := rfl
@[simp] theorem continueValue_decNval (acc : Word) (ovf : Bool) (s : State) : (continueValue acc ovf s).decNval = s.decNval := rfl
@[simp] theorem continueValue_dendNval (acc : Word) (ovf : Bool) (s : State) : (continueValue acc ovf s).dendNval = s.dendNval := rfl
@[simp] theorem continueValue_encOut (acc : Word) (ovf : Bool) (s : State) : (continueValue acc ovf s).encOut = s.encOut := rfl
@[simp] theorem continueValue_decOut (acc : Word) (ovf : Bool) (s : State) : (continueValue acc ovf s).decOut = s.decOut := rfl
@[simp] theorem continueValue_rdData (acc : Word) (ovf : Bool) (s : State) : (continueValue acc ovf s).rdData = s.rdData := rfl
@[simp] theorem continueValue_input (acc : Word) (ovf : Bool) (s : State) : (continueValue acc ovf s).input = s.input := rfl

@[simp] theorem countValue_decAcc (s : State) : (countValue s).decAcc = s.decAcc := rfl
@[simp] theorem countValue_decMid (s : State) : (countValue s).decMid = s.decMid := rfl
@[simp] theorem countValue_decOvf (s : State) : (countValue s).decOvf = s.decOvf := rfl
@[simp] theorem countValue_decErr (s : State) : (countValue s).decErr = s.decErr := rfl
@[simp] theorem countValue_dendCode (s : State) : (countValue s).dendCode = s.dendCode := rfl
@[simp] theorem countValue_ill (s : State) : (countValue s).ill = s.ill := rfl
@[simp] theorem countValue_result (s : State) : (countValue s).result = s.result := rfl
@[simp] theorem countValue_encLen (s : State) : (countValue s).encLen = s.encLen := rfl
@[simp] theorem countValue_decNval (s : State) : (countValue s).decNval = s.decNval + 1#32 := rfl
@[simp] theorem countValue_dendNval (s : State) : (countValue s).dendNval = s.dendNval := rfl
@[simp] theorem countValue_encOut (s : State) : (countValue s).encOut = s.encOut := rfl
@[simp] theorem countValue_decOut (s : State) : (countValue s).decOut = s.decOut := rfl
@[simp] theorem countValue_rdData (s : State) : (countValue s).rdData = s.rdData := rfl
@[simp] theorem countValue_input (s : State) : (countValue s).input = s.input := rfl

@[simp] theorem failTransaction_decAcc (s : State) : (failTransaction s).decAcc = s.decAcc := rfl
@[simp] theorem failTransaction_decMid (s : State) : (failTransaction s).decMid = s.decMid := rfl
@[simp] theorem failTransaction_decOvf (s : State) : (failTransaction s).decOvf = s.decOvf := rfl
@[simp] theorem failTransaction_decErr (s : State) : (failTransaction s).decErr = true := rfl
@[simp] theorem failTransaction_dendCode (s : State) : (failTransaction s).dendCode = s.dendCode := rfl
@[simp] theorem failTransaction_ill (s : State) : (failTransaction s).ill = s.ill := rfl
@[simp] theorem failTransaction_result (s : State) : (failTransaction s).result = s.result := rfl
@[simp] theorem failTransaction_encLen (s : State) : (failTransaction s).encLen = s.encLen := rfl
@[simp] theorem failTransaction_decNval (s : State) : (failTransaction s).decNval = s.decNval := rfl
@[simp] theorem failTransaction_dendNval (s : State) : (failTransaction s).dendNval = s.dendNval := rfl
@[simp] theorem failTransaction_encOut (s : State) : (failTransaction s).encOut = s.encOut := rfl
@[simp] theorem failTransaction_decOut (s : State) : (failTransaction s).decOut = s.decOut := rfl
@[simp] theorem failTransaction_rdData (s : State) : (failTransaction s).rdData = s.rdData := rfl
@[simp] theorem failTransaction_input (s : State) : (failTransaction s).input = s.input := rfl

@[simp] theorem clearValue_decAcc (s : State) : (clearValue s).decAcc = 0#32 := rfl
@[simp] theorem clearValue_decMid (s : State) : (clearValue s).decMid = false := rfl
@[simp] theorem clearValue_decOvf (s : State) : (clearValue s).decOvf = false := rfl
@[simp] theorem clearValue_decErr (s : State) : (clearValue s).decErr = s.decErr := rfl
@[simp] theorem clearValue_dendCode (s : State) : (clearValue s).dendCode = s.dendCode := rfl
@[simp] theorem clearValue_ill (s : State) : (clearValue s).ill = s.ill := rfl
@[simp] theorem clearValue_result (s : State) : (clearValue s).result = s.result := rfl
@[simp] theorem clearValue_encLen (s : State) : (clearValue s).encLen = s.encLen := rfl
@[simp] theorem clearValue_decNval (s : State) : (clearValue s).decNval = s.decNval := rfl
@[simp] theorem clearValue_dendNval (s : State) : (clearValue s).dendNval = s.dendNval := rfl
@[simp] theorem clearValue_encOut (s : State) : (clearValue s).encOut = s.encOut := rfl
@[simp] theorem clearValue_decOut (s : State) : (clearValue s).decOut = s.decOut := rfl
@[simp] theorem clearValue_rdData (s : State) : (clearValue s).rdData = s.rdData := rfl
@[simp] theorem clearValue_input (s : State) : (clearValue s).input = s.input := rfl

@[simp] theorem reportTransaction_decAcc (s : State) : (reportTransaction s).decAcc = s.decAcc := rfl
@[simp] theorem reportTransaction_decMid (s : State) : (reportTransaction s).decMid = s.decMid := rfl
@[simp] theorem reportTransaction_decOvf (s : State) : (reportTransaction s).decOvf = s.decOvf := rfl
@[simp] theorem reportTransaction_decErr (s : State) : (reportTransaction s).decErr = s.decErr := rfl
@[simp] theorem reportTransaction_dendCode (s : State) : (reportTransaction s).dendCode = dendResult s := rfl
@[simp] theorem reportTransaction_ill (s : State) : (reportTransaction s).ill = s.ill := rfl
@[simp] theorem reportTransaction_result (s : State) : (reportTransaction s).result = s.result := rfl
@[simp] theorem reportTransaction_encLen (s : State) : (reportTransaction s).encLen = s.encLen := rfl
@[simp] theorem reportTransaction_decNval (s : State) : (reportTransaction s).decNval = s.decNval := rfl
@[simp] theorem reportTransaction_dendNval (s : State) : (reportTransaction s).dendNval = s.decNval := rfl
@[simp] theorem reportTransaction_encOut (s : State) : (reportTransaction s).encOut = s.encOut := rfl
@[simp] theorem reportTransaction_decOut (s : State) : (reportTransaction s).decOut = s.decOut := rfl
@[simp] theorem reportTransaction_rdData (s : State) : (reportTransaction s).rdData = s.rdData := rfl
@[simp] theorem reportTransaction_input (s : State) : (reportTransaction s).input = s.input := rfl

@[simp] theorem clearContext_decAcc (s : State) : (clearContext s).decAcc = 0#32 := rfl
@[simp] theorem clearContext_decMid (s : State) : (clearContext s).decMid = false := rfl
@[simp] theorem clearContext_decOvf (s : State) : (clearContext s).decOvf = false := rfl
@[simp] theorem clearContext_decErr (s : State) : (clearContext s).decErr = false := rfl
@[simp] theorem clearContext_dendCode (s : State) : (clearContext s).dendCode = s.dendCode := rfl
@[simp] theorem clearContext_ill (s : State) : (clearContext s).ill = s.ill := rfl
@[simp] theorem clearContext_result (s : State) : (clearContext s).result = s.result := rfl
@[simp] theorem clearContext_encLen (s : State) : (clearContext s).encLen = s.encLen := rfl
@[simp] theorem clearContext_decNval (s : State) : (clearContext s).decNval = 0#32 := rfl
@[simp] theorem clearContext_dendNval (s : State) : (clearContext s).dendNval = s.dendNval := rfl
@[simp] theorem clearContext_encOut (s : State) : (clearContext s).encOut = s.encOut := rfl
@[simp] theorem clearContext_decOut (s : State) : (clearContext s).decOut = s.decOut := rfl
@[simp] theorem clearContext_rdData (s : State) : (clearContext s).rdData = s.rdData := rfl
@[simp] theorem clearContext_input (s : State) : (clearContext s).input = s.input := rfl

@[simp] theorem raiseIllegalCommand_decAcc (s : State) : (raiseIllegalCommand s).decAcc = s.decAcc := rfl
@[simp] theorem raiseIllegalCommand_decMid (s : State) : (raiseIllegalCommand s).decMid = s.decMid := rfl
@[simp] theorem raiseIllegalCommand_decOvf (s : State) : (raiseIllegalCommand s).decOvf = s.decOvf := rfl
@[simp] theorem raiseIllegalCommand_decErr (s : State) : (raiseIllegalCommand s).decErr = s.decErr := rfl
@[simp] theorem raiseIllegalCommand_dendCode (s : State) : (raiseIllegalCommand s).dendCode = s.dendCode := rfl
@[simp] theorem raiseIllegalCommand_ill (s : State) : (raiseIllegalCommand s).ill = true := rfl
@[simp] theorem raiseIllegalCommand_result (s : State) : (raiseIllegalCommand s).result = s.result := rfl
@[simp] theorem raiseIllegalCommand_encLen (s : State) : (raiseIllegalCommand s).encLen = s.encLen := rfl
@[simp] theorem raiseIllegalCommand_decNval (s : State) : (raiseIllegalCommand s).decNval = s.decNval := rfl
@[simp] theorem raiseIllegalCommand_dendNval (s : State) : (raiseIllegalCommand s).dendNval = s.dendNval := rfl
@[simp] theorem raiseIllegalCommand_encOut (s : State) : (raiseIllegalCommand s).encOut = s.encOut := rfl
@[simp] theorem raiseIllegalCommand_decOut (s : State) : (raiseIllegalCommand s).decOut = s.decOut := rfl
@[simp] theorem raiseIllegalCommand_rdData (s : State) : (raiseIllegalCommand s).rdData = s.rdData := rfl
@[simp] theorem raiseIllegalCommand_input (s : State) : (raiseIllegalCommand s).input = s.input := rfl

@[simp] theorem resetBlock_decAcc (s : State) : (resetBlock s).decAcc = 0#32 := rfl
@[simp] theorem resetBlock_decMid (s : State) : (resetBlock s).decMid = false := rfl
@[simp] theorem resetBlock_decOvf (s : State) : (resetBlock s).decOvf = false := rfl
@[simp] theorem resetBlock_decErr (s : State) : (resetBlock s).decErr = false := rfl
@[simp] theorem resetBlock_dendCode (s : State) : (resetBlock s).dendCode = .none := rfl
@[simp] theorem resetBlock_ill (s : State) : (resetBlock s).ill = false := rfl
@[simp] theorem resetBlock_result (s : State) : (resetBlock s).result = 0#32 := rfl
@[simp] theorem resetBlock_encLen (s : State) : (resetBlock s).encLen = 0#3 := rfl
@[simp] theorem resetBlock_decNval (s : State) : (resetBlock s).decNval = 0#32 := rfl
@[simp] theorem resetBlock_dendNval (s : State) : (resetBlock s).dendNval = 0#32 := rfl
@[simp] theorem resetBlock_encOut (s : State) : (resetBlock s).encOut = s.encOut := rfl
@[simp] theorem resetBlock_decOut (s : State) : (resetBlock s).decOut = s.decOut := rfl
@[simp] theorem resetBlock_rdData (s : State) : (resetBlock s).rdData = s.rdData := rfl
@[simp] theorem resetBlock_input (s : State) : (resetBlock s).input = s.input := rfl

@[simp] theorem answerRead_decAcc (idx : BitVec 3) (s : State) : (answerRead idx s).decAcc = s.decAcc := rfl
@[simp] theorem answerRead_decMid (idx : BitVec 3) (s : State) : (answerRead idx s).decMid = s.decMid := rfl
@[simp] theorem answerRead_decOvf (idx : BitVec 3) (s : State) : (answerRead idx s).decOvf = s.decOvf := rfl
@[simp] theorem answerRead_decErr (idx : BitVec 3) (s : State) : (answerRead idx s).decErr = s.decErr := rfl
@[simp] theorem answerRead_dendCode (idx : BitVec 3) (s : State) : (answerRead idx s).dendCode = s.dendCode := rfl
@[simp] theorem answerRead_ill (idx : BitVec 3) (s : State) : (answerRead idx s).ill = s.ill := rfl
@[simp] theorem answerRead_result (idx : BitVec 3) (s : State) : (answerRead idx s).result = s.result := rfl
@[simp] theorem answerRead_encLen (idx : BitVec 3) (s : State) : (answerRead idx s).encLen = s.encLen := rfl
@[simp] theorem answerRead_decNval (idx : BitVec 3) (s : State) : (answerRead idx s).decNval = s.decNval := rfl
@[simp] theorem answerRead_dendNval (idx : BitVec 3) (s : State) : (answerRead idx s).dendNval = s.dendNval := rfl
@[simp] theorem answerRead_encOut (idx : BitVec 3) (s : State) : (answerRead idx s).encOut = s.encOut := rfl
@[simp] theorem answerRead_decOut (idx : BitVec 3) (s : State) : (answerRead idx s).decOut = s.decOut := rfl
@[simp] theorem answerRead_rdData (idx : BitVec 3) (s : State) : (answerRead idx s).rdData = s.rdData ++ [readReg idx s] := rfl
@[simp] theorem answerRead_input (idx : BitVec 3) (s : State) : (answerRead idx s).input = s.input := rfl

@[simp] theorem issueNext_decAcc (c : CmdWord) (s : State) : (issueNext c s).decAcc = s.decAcc := rfl
@[simp] theorem issueNext_decMid (c : CmdWord) (s : State) : (issueNext c s).decMid = s.decMid := rfl
@[simp] theorem issueNext_decOvf (c : CmdWord) (s : State) : (issueNext c s).decOvf = s.decOvf := rfl
@[simp] theorem issueNext_decErr (c : CmdWord) (s : State) : (issueNext c s).decErr = s.decErr := rfl
@[simp] theorem issueNext_dendCode (c : CmdWord) (s : State) : (issueNext c s).dendCode = s.dendCode := rfl
@[simp] theorem issueNext_ill (c : CmdWord) (s : State) : (issueNext c s).ill = s.ill := rfl
@[simp] theorem issueNext_result (c : CmdWord) (s : State) : (issueNext c s).result = s.result := rfl
@[simp] theorem issueNext_encLen (c : CmdWord) (s : State) : (issueNext c s).encLen = s.encLen := rfl
@[simp] theorem issueNext_decNval (c : CmdWord) (s : State) : (issueNext c s).decNval = s.decNval := rfl
@[simp] theorem issueNext_dendNval (c : CmdWord) (s : State) : (issueNext c s).dendNval = s.dendNval := rfl
@[simp] theorem issueNext_encOut (c : CmdWord) (s : State) : (issueNext c s).encOut = s.encOut := rfl
@[simp] theorem issueNext_decOut (c : CmdWord) (s : State) : (issueNext c s).decOut = s.decOut := rfl
@[simp] theorem issueNext_rdData (c : CmdWord) (s : State) : (issueNext c s).rdData = s.rdData := rfl
@[simp] theorem issueNext_input (c : CmdWord) (s : State) : (issueNext c s).input = .command c :: s.input := rfl

@[simp] theorem issue_decAcc (xs : List HostInput) (s : State) : (issue xs s).decAcc = s.decAcc := rfl
@[simp] theorem issue_decMid (xs : List HostInput) (s : State) : (issue xs s).decMid = s.decMid := rfl
@[simp] theorem issue_decOvf (xs : List HostInput) (s : State) : (issue xs s).decOvf = s.decOvf := rfl
@[simp] theorem issue_decErr (xs : List HostInput) (s : State) : (issue xs s).decErr = s.decErr := rfl
@[simp] theorem issue_dendCode (xs : List HostInput) (s : State) : (issue xs s).dendCode = s.dendCode := rfl
@[simp] theorem issue_ill (xs : List HostInput) (s : State) : (issue xs s).ill = s.ill := rfl
@[simp] theorem issue_result (xs : List HostInput) (s : State) : (issue xs s).result = s.result := rfl
@[simp] theorem issue_encLen (xs : List HostInput) (s : State) : (issue xs s).encLen = s.encLen := rfl
@[simp] theorem issue_decNval (xs : List HostInput) (s : State) : (issue xs s).decNval = s.decNval := rfl
@[simp] theorem issue_dendNval (xs : List HostInput) (s : State) : (issue xs s).dendNval = s.dendNval := rfl
@[simp] theorem issue_encOut (xs : List HostInput) (s : State) : (issue xs s).encOut = s.encOut := rfl
@[simp] theorem issue_decOut (xs : List HostInput) (s : State) : (issue xs s).decOut = s.decOut := rfl
@[simp] theorem issue_rdData (xs : List HostInput) (s : State) : (issue xs s).rdData = s.rdData := rfl
@[simp] theorem issue_input (xs : List HostInput) (s : State) : (issue xs s).input = xs ++ s.input := rfl

end Sys2Proof.Machine
end

