-- ==== Sys2Proof/Laws/Ops.lean ====
section
/-! SUPPORT. One lemma per shared operation whose text is a recursion or a case distinction: all it can
do, said once. -/

namespace Sys2Proof.Machine

theorem emitGroups_eq (v : Word) (n : Nat) (s : State) :
    emitGroups v n s = { s with encOut := s.encOut ++ encBytesDown v n } := by
  induction n generalizing s with
  | zero => simp [emitGroups, encBytesDown]
  | succ n ih => simp [emitGroups, encBytesDown, ih, emitEnc]

theorem takeInput_nil {s : State} (h : s.input = []) : takeInput s = none := by
  simp [takeInput, h]

theorem takeInput_cons {s : State} {x : HostInput} {rest : List HostInput}
    (h : s.input = x :: rest) : takeInput s = some (x, { s with input := rest }) := by
  simp [takeInput, h]

/-- The codes DEND reports, by the two flags it reads. -/
theorem dendResult_cases (s : State) :
    (s.decErr = true ∧ dendResult s = .overflow) ∨
    (s.decErr = false ∧ s.decMid = true ∧ dendResult s = .incomplete) ∨
    (s.decErr = false ∧ s.decMid = false ∧ dendResult s = .ok) := by
  cases he : s.decErr <;> cases hm : s.decMid <;> simp [dendResult, he, hm]

/-- Everything DEC can do. -/
theorem execDec_cases (b : Byte) (s : State) :
    (s.decErr = true ∧ execDec b s = .next s) ∨
    (s.decErr = false ∧ cont b = true ∧
      execDec b s = .next (continueValue (accNext s.decAcc b) (ovfNext s.decOvf s.decAcc) s)) ∨
    (s.decErr = false ∧ cont b = false ∧ ovfNext s.decOvf s.decAcc = true ∧
      execDec b s = .next (clearValue (failTransaction s))) ∨
    (s.decErr = false ∧ cont b = false ∧ ovfNext s.decOvf s.decAcc = false ∧
      execDec b s = .next (clearValue (countValue (emitDec (accNext s.decAcc b) s)))) := by
  cases he : s.decErr <;> cases hc : cont b <;> cases ho : ovfNext s.decOvf s.decAcc <;>
    simp [execDec, he, hc, ho]

end Sys2Proof.Machine
end

