-- ==== Sys2Proof/Laws/Words.lean ====
section
/-! SUPPORT. The fields of a command word, and the word made of three fields, as arithmetic. -/

namespace Sys2Proof

theorem opField_toNat (c : CmdWord) : (opField c).toNat = c.toNat / 2 ^ 36 := by
  have := c.isLt
  simp only [opField, BitVec.extractLsb'_toNat, Nat.shiftRight_eq_div_pow]
  omega

theorem kField_toNat (c : CmdWord) : (kField c).toNat = c.toNat / 2 ^ 32 % 2 ^ 4 := by
  simp only [kField, BitVec.extractLsb'_toNat, Nat.shiftRight_eq_div_pow]

theorem operandField_toNat (c : CmdWord) : (operandField c).toNat = c.toNat % 2 ^ 32 := by
  simp [operandField, BitVec.extractLsb'_toNat]

theorem byteField_toNat (c : CmdWord) : (byteField c).toNat = c.toNat % 2 ^ 8 := by
  simp [byteField, BitVec.extractLsb'_toNat]

theorem upperField_toNat (c : CmdWord) : (upperField c).toNat = c.toNat / 2 ^ 8 % 2 ^ 24 := by
  simp only [upperField, BitVec.extractLsb'_toNat, Nat.shiftRight_eq_div_pow]

theorem mkWord_toNat (op k : BitVec 4) (x : Word) :
    (mkWord op k x).toNat = op.toNat * 2 ^ 36 + k.toNat * 2 ^ 32 + x.toNat := by
  have hx := x.isLt
  have hk := k.isLt
  have ho := op.isLt
  have e1 : (op.setWidth 40 <<< 36).toNat = 2 ^ 36 * op.toNat := by
    simp only [BitVec.toNat_shiftLeft, BitVec.toNat_setWidth, Nat.shiftLeft_eq]; omega
  have e2 : (k.setWidth 40 <<< 32).toNat = 2 ^ 32 * k.toNat := by
    simp only [BitVec.toNat_shiftLeft, BitVec.toNat_setWidth, Nat.shiftLeft_eq]; omega
  have e3 : (x.setWidth 40).toNat = x.toNat := by
    simp only [BitVec.toNat_setWidth]; omega
  have h1 := Nat.two_pow_add_eq_or_of_lt (show 2 ^ 32 * k.toNat < 2 ^ 36 by omega) op.toNat
  have h2 := Nat.two_pow_add_eq_or_of_lt hx (2 ^ 4 * op.toNat + k.toNat)
  rw [mkWord, BitVec.toNat_or, BitVec.toNat_or, e1, e2, e3, ← h1,
    show 2 ^ 36 * op.toNat + 2 ^ 32 * k.toNat = 2 ^ 32 * (2 ^ 4 * op.toNat + k.toNat) by ring,
    ← h2]
  ring

end Sys2Proof
end

