-- ==== Sys2Proof/Laws/PerInstr.lean ====
section
/-! SUPPORT. Statements about every instruction as written, one lemma per constructor. -/

namespace Sys2Proof.Laws.TableRow

/-- The instruction's word has the pattern of its row of spec/opcode_table.json, which is in the
table. -/
def Statement (i : Instr) : Prop :=
  ∃ r ∈ opcodeTable, r.mnemonic = i.mnemonic ∧ r.matchesWord (encode i) = true

theorem enc (v : Word) : Statement (.enc v) := by
  refine ⟨⟨"ENC", 0x1000000000#40, 0xFF00000000#40⟩, by decide, rfl, ?_⟩
  rw [OpcodeRow.matchesWord, beq_iff_eq, encode, mkWord]
  ext i hi
  interval_cases i <;> simp

theorem dec (b : Byte) : Statement (.dec b) := by
  refine ⟨⟨"DEC", 0x2000000000#40, 0xFFFFFFFF00#40⟩, by decide, rfl, ?_⟩
  rw [OpcodeRow.matchesWord, beq_iff_eq, encode, mkWord]
  ext i hi
  interval_cases i <;> simp

theorem dend : Statement .dend :=
  ⟨⟨"DEND", 0x3000000000#40, 0xFFFFFFFFFF#40⟩, by decide, rfl, by decide⟩

theorem grp (v : Word) (k : BitVec 4) : Statement (.grp v k) := by
  refine ⟨⟨"GRP", 0x4000000000#40, 0xF000000000#40⟩, by decide, rfl, ?_⟩
  rw [OpcodeRow.matchesWord, beq_iff_eq, encode, mkWord]
  ext i hi
  interval_cases i <;> simp

theorem cfd (b : Byte) : Statement (.cfd b) := by
  refine ⟨⟨"CFD", 0x5000000000#40, 0xFFFFFFFF00#40⟩, by decide, rfl, ?_⟩
  rw [OpcodeRow.matchesWord, beq_iff_eq, encode, mkWord]
  ext i hi
  interval_cases i <;> simp

end Sys2Proof.Laws.TableRow
end

