-- ==== Sys2Proof/Laws/Step.lean ====
section
/-! SUPPORT. What one step can do, said once, and how runs compose. -/

namespace Sys2Proof.Machine

theorem step_idle {s : State} (h : s.input = []) : step s = .next s := by
  simp [step, takeAndRun, takeInput_nil h]

theorem step_cons {s : State} {x : HostInput} {rest : List HostInput} (h : s.input = x :: rest) :
    step s = runInput x { s with input := rest } := by
  simp [step, takeAndRun, takeInput_cons h]

theorem runCommand_ok {c : CmdWord} {i : Instr} (h : decode c = .ok i) (s : State) :
    runCommand c s = exec i s := by
  simp [runCommand, h]

theorem runCommand_error {c : CmdWord} {e : IllegalReason} (h : decode c = .error e) (s : State) :
    runCommand c s = .next (raiseIllegalCommand s) := by
  simp [runCommand, h]

/-- Every command answers a next state. -/
theorem exec_next (i : Instr) (s : State) : ∃ t, exec i s = .next t := by
  cases i with
  | dec b =>
    rcases execDec_cases b s with ⟨_, h⟩ | ⟨_, _, h⟩ | ⟨_, _, _, h⟩ | ⟨_, _, _, h⟩ <;>
      exact ⟨_, h⟩
  | _ => exact ⟨_, rfl⟩

/-- Everything a step can do: idle, a reset, a register read, an illegal word, a command. -/
theorem step_cases {s t : State} (h : step s = .next t) :
    (s.input = [] ∧ t = s) ∨
    ∃ x rest, s.input = x :: rest ∧
      ((x = .reset ∧ t = resetBlock { s with input := rest }) ∨
       (∃ idx, x = .readReg idx ∧ t = answerRead idx { s with input := rest }) ∨
       (∃ c e, x = .command c ∧ decode c = .error e ∧
          t = raiseIllegalCommand { s with input := rest }) ∨
       (∃ c i, x = .command c ∧ decode c = .ok i ∧ exec i { s with input := rest } = .next t)) := by
  cases hi : s.input with
  | nil => rw [step_idle hi] at h; cases h; exact .inl ⟨rfl, rfl⟩
  | cons x rest =>
    rw [step_cons hi] at h
    refine .inr ⟨x, rest, rfl, ?_⟩
    cases x with
    | reset => cases h; exact .inl ⟨rfl, rfl⟩
    | readReg idx => cases h; exact .inr (.inl ⟨idx, rfl, rfl⟩)
    | command c =>
      cases hd : decode c with
      | error e =>
        rw [runInput, runCommand_error hd] at h
        cases h; exact .inr (.inr (.inl ⟨c, e, rfl, hd, rfl⟩))
      | ok i =>
        rw [runInput, runCommand_ok hd] at h
        exact .inr (.inr (.inr ⟨c, i, rfl, hd, h⟩))

/-- What no command writes. -/
theorem exec_frame {i : Instr} {s t : State} (h : exec i s = .next t) :
    t.ill = s.ill ∧ t.rdData = s.rdData ∧ t.input = s.input := by
  cases i with
  | enc v => cases h; simp [emitGroups_eq]
  | dec b =>
    rcases execDec_cases b s with ⟨_, e⟩ | ⟨_, _, e⟩ | ⟨_, _, _, e⟩ | ⟨_, _, _, e⟩ <;>
      (rw [exec, e] at h; cases h; simp)
  | dend => cases h; simp
  | grp v k => cases h; simp
  | cfd b => cases h; simp

/-- No command reads the inputs still waiting. -/
theorem exec_input {i : Instr} {s t : State} (xs : List HostInput) (h : exec i s = .next t) :
    exec i { s with input := xs } = .next { t with input := xs } := by
  cases i with
  | enc v => cases h; simp [exec, execEnc, emitGroups_eq, setEncLen]
  | dec b =>
    simp only [exec, execDec] at h ⊢
    split at h
    · cases h; simp [*]
    split at h
    · cases h; simp [*, continueValue]
    split at h
    · cases h; simp [*, clearValue, failTransaction]
    · cases h; simp [*, clearValue, countValue, emitDec]
  | dend => cases h; rfl
  | grp v k => cases h; rfl
  | cfd b => cases h; rfl

/-- An input runs to a next state, keeps the inputs still waiting and does not read them. -/
theorem runInput_next (x : HostInput) (s : State) :
    ∃ t, runInput x s = .next t ∧ t.input = s.input ∧
      ∀ xs, runInput x { s with input := xs } = .next { t with input := xs } := by
  cases x with
  | reset => exact ⟨_, rfl, rfl, fun _ => rfl⟩
  | readReg idx => exact ⟨_, rfl, rfl, fun _ => rfl⟩
  | command c =>
    cases hd : decode c with
    | error e =>
      simp only [runInput, runCommand_error hd]
      exact ⟨_, rfl, rfl, fun _ => rfl⟩
    | ok i =>
      obtain ⟨t, ht⟩ := exec_next i s
      simp only [runInput, runCommand_ok hd]
      exact ⟨t, ht, (exec_frame ht).2.2, fun xs => exec_input xs ht⟩

theorem run_succ {s t : State} (h : step s = .next t) (n : Nat) : run (n + 1) s = run n t := by
  simp [run, h]

@[simp] theorem runAll_nil (s : State) : runAll [] s = .next s := rfl

/-- Running inputs is running the first, then the others. -/
theorem runAll_cons {x : HostInput} {s t : State} (h : runInput x s = .next t)
    (xs : List HostInput) : runAll (x :: xs) s = runAll xs t := by
  obtain ⟨t', ht', hin, hx⟩ := runInput_next x s
  obtain rfl : t' = t := by rw [ht'] at h; exact Host.Outcome.next.inj h
  have hs : step (issue (x :: xs) s) = .next { t' with input := xs ++ s.input } := by
    rw [step_cons (x := x) (rest := xs ++ s.input) rfl]; exact hx (xs ++ s.input)
  rw [runAll, List.length_cons, run_succ hs, runAll, issue, hin]

theorem runAll_append {xs : List HostInput} {s u : State} (h : runAll xs s = .next u)
    (ys : List HostInput) : runAll (xs ++ ys) s = runAll ys u := by
  induction xs generalizing s with
  | nil => cases h; rfl
  | cons x xs ih =>
    obtain ⟨t, ht, _⟩ := runInput_next x s
    rw [runAll_cons ht] at h
    rw [List.cons_append, runAll_cons ht, ih h]

/-- Every list of inputs runs to its end and keeps the inputs still waiting. -/
theorem runAll_next (xs : List HostInput) (s : State) :
    ∃ t, runAll xs s = .next t ∧ t.input = s.input := by
  induction xs generalizing s with
  | nil => exact ⟨s, rfl, rfl⟩
  | cons x xs ih =>
    obtain ⟨t, ht, hin, _⟩ := runInput_next x s
    obtain ⟨u, hu, hui⟩ := ih t
    exact ⟨u, by rw [runAll_cons ht, hu], by rw [hui, hin]⟩

end Sys2Proof.Machine
end

