-- ==== Sys2Proof/Tests/Slice0.lean ====
section
/-! SUPPORT. Tests, with expected results from spec/95_test_vectors.md and the rules named, and one
witness for the hypotheses of each statement of Certificates/Slice0/Obligations.lean. -/

namespace Sys2Proof.Tests

open Sys2Proof Sys2Proof.Machine

/-- The next state of an outcome, for looking at a field of it. -/
def after : Host.Outcome State Fault Refusal → State
  | .next s => s
  | .fault _ => State.reset
  | .refused _ => State.reset

/-- The reset state with one input waiting. -/
def withInput (x : HostInput) : State := { State.reset with input := [x] }

/-- A state in the middle of a value. -/
def midValue (acc : Word) (ovf : Bool) : State :=
  { State.reset with decAcc := acc, decOvf := ovf, decMid := true }

/-! ## WellFormed: one ill-formed line per check (30_encoding.md R81, R82) -/

theorem test_enc_range : (AsmLine.enc 0x100000000).wellFormed = false := by decide
theorem test_dec_range : (AsmLine.dec 0x100).wellFormed = false := by decide
theorem test_grp_value_range : (AsmLine.grp 0x100000000 0).wellFormed = false := by decide
theorem test_grp_index_range : (AsmLine.grp 0 16).wellFormed = false := by decide
theorem test_cfd_range : (AsmLine.cfd 0x100).wellFormed = false := by decide
theorem test_encode_range : (AsmLine.encode [0, 0x100000000]).wellFormed = false := by decide
theorem test_decode_range : (AsmLine.decode [0xFF, 0x100]).wellFormed = false := by decide
theorem test_word40_range : (AsmLine.word40 0x10000000000).wellFormed = false := by decide
theorem test_in_range : (AsmLine.grp 0xFFFFFFFF 15).wellFormed = true := by decide
/-- 41_encode.md R119: the operands of an instruction have no value out of range. -/
theorem test_instr_well_formed : (Instr.grp 0xFFFFFFFF#32 15#4).wellFormed = true := by decide

/-- 00_scope.md R5 to R8: the word types have the widths of Config. -/
theorem test_widths : Word = BitVec Config.wInt ∧ Byte = BitVec Config.wByte ∧
    Group = BitVec Config.groupBits ∧ CmdWord = BitVec Config.cmdWidth ∧
    Word = BitVec Config.counterWidth := ⟨rfl, rfl, rfl, rfl, rfl⟩

/-! ## Decoding: words written out from 30_encoding.md R71 and R76, field by field -/

theorem test_decode_enc :
    decode (0b0001#4 ++ 0b0000#4 ++ 0x00004000#32) = .ok (.enc 0x4000#32) := by decide
theorem test_decode_dec :
    decode (0b0010#4 ++ 0b0000#4 ++ 0x000000#24 ++ 0x81#8) = .ok (.dec 0x81#8) := by decide
theorem test_decode_dend : decode (0b0011#4 ++ 0b0000#4 ++ 0x00000000#32) = .ok .dend := by decide
theorem test_decode_grp :
    decode (0b0100#4 ++ 0b0010#4 ++ 0x00123456#32) = .ok (.grp 0x123456#32 2#4) := by decide
theorem test_decode_cfd :
    decode (0b0101#4 ++ 0b0000#4 ++ 0x000000#24 ++ 0xE8#8) = .ok (.cfd 0xE8#8) := by decide
/-- 95_test_vectors.md section 2.1, the legal rows. -/
theorem test_legal_rows :
    [0x10FFFFFFFF#40, 0x20000000FF#40, 0x3000000000#40, 0x4F00000000#40, 0x4200123456#40,
      0x5000000080#40].all legal = true := by decide
/-- 95_test_vectors.md section 2.1, the illegal rows. -/
theorem test_illegal_rows :
    [0x0000000000#40, 0x1100000000#40, 0x2000000100#40, 0x2100000005#40, 0x3000000001#40,
      0x3100000000#40, 0x5000000180#40, 0x5100000080#40, 0x6000000000#40, 0xF000000000#40].any
        legal = false := by decide
theorem test_reserved_names :
    decode 0x6000000000#40 = .error (.reservedOpcode 6#4) ∧
    decode 0x2100000005#40 = .error (.reservedK 1#4) ∧
    decode 0x3000000001#40 = .error (.reservedOperand 1#32) := by decide
theorem test_table_word : decodeTableWord 40 0x4F00000000 = some (.grp 0#32 15#4) ∧
    decodeTableWord 40 0x6000000000 = none := by decide

/-! ## The commands (95_test_vectors.md sections 2.2 to 2.5) -/

theorem test_grp_top : (after (exec (.grp 0xDEADBEEF#32 4#4) State.reset)).result = 0x0D#32 := by decide
theorem test_grp_middle : (after (exec (.grp 0xDEADBEEF#32 2#4) State.reset)).result = 0x36#32 := by
  decide
theorem test_cfd_clear : (after (exec (.cfd 0x7F#8) State.reset)).result = 0#32 := by decide
theorem test_cfd_set : (after (exec (.cfd 0x80#8) State.reset)).result = 1#32 := by decide
theorem test_enc_five_bytes :
    (after (exec (.enc 0x12345678#32) State.reset)).encOut =
      [0x81#8, 0x91#8, 0xD1#8, 0xAC#8, 0x78#8] := by decide
theorem test_enc_length : (after (exec (.enc 0x1FFFFF#32) State.reset)).encLen = 3#3 := by decide
/-- 42_decode.md R146: the fifth byte of 8F FF FF FF 7F. -/
theorem test_dec_largest :
    (after (exec (.dec 0x7F#8) (midValue 0x1FFFFFF#32 false))).decOut = [0xFFFFFFFF#32] := by decide
/-- 95_test_vectors.md section 2.5: the fifth byte of 90 80 80 80 00. -/
theorem test_dec_overflow :
    exec (.dec 0x00#8) (midValue 0x02000000#32 false) =
      .next { State.reset with decErr := true } := by rfl
/-- 42_decode.md R139. -/
theorem test_dend_incomplete :
    (after (exec .dend (midValue 0#32 false))).dendCode = .incomplete := by decide
theorem test_dend_status : statusWord (after (exec .dend State.reset)) = 0x08#32 := by decide

/-! ## Steps and the port -/

theorem test_fetch_word_runs_first :
    step (State.reset.withFetchWord 40 0x44FFFFFFFF) =
      .next { State.reset with result := 0x0F#32 } := by rfl
theorem test_illegal_step :
    step (State.reset.withFetchWord 40 0x6000000000) = .next { State.reset with ill := true } := by
  rfl
theorem test_read_status :
    (after (step { withInput (.readReg 0#3) with ill := true, dendCode := .ok })).rdData =
      [0x28#32] := by decide
/-- 70_reset_and_hazards.md R186: the streams stay. -/
theorem test_reset_keeps_streams :
    (after (step { withInput .reset with encOut := [7#8], result := 1#32 })) =
      { State.reset with encOut := [7#8] } := by decide

/-! ## Streams and the assembler -/

/-- 95_test_vectors.md section 2.5. -/
theorem test_decode_ref :
    decodeRef [0x01#8, 0x02#8, 0x03#8] = .ok [1, 2, 3] ∧
    decodeRef [0x00#8, 0x80#8] = .error .incompleteSequence ∧
    decodeRef [0xFF#8, 0xFF#8, 0xFF#8, 0xFF#8, 0x7F#8] = .error .overflow := by decide
/-- 95_test_vectors.md section 3, P1 with a comment and other letter case, and P5's raw word. -/
theorem test_assemble :
    assemble "Encode 0x4000, 0x123456 ; two values\n\n .word40 0x6000000000\nGRP 0xFFFFFFFF, 4".toList =
      .ok [0x1000004000#40, 0x1000123456#40, 0x6000000000#40, 0x44FFFFFFFF#40] := by decide
/-- 30_encoding.md R82. -/
theorem test_assemble_errors :
    assemble "dec 256".toList = .error .outOfRange ∧
    assemble "enc 1\ngrp 1".toList = .error .wrongOperandCount ∧
    assemble "mul 1".toList = .error .unknownMnemonic ∧
    assemble "cfd 0x".toList = .error .badNumber := by decide

/-! ## Witnesses: the hypotheses of each statement met together -/

/-- ContextClear, for every statement that has no other hypothesis (EmptyTransactionIsOk,
TransactionComputesDecodeRef, RoundTripOfEncodeAndDecode, OverflowCasesFailTheTransaction,
ValidEncodingsNeverOverflow, TransactionIsRepeatable). -/
theorem witness_context_clear : ContextClear State.reset := ⟨rfl, rfl, rfl, rfl, rfl⟩

theorem witness_ResetStepWritesEveryElement : (withInput .reset).input = .reset :: [] := rfl

theorem witness_ResetCutsTransactionWithoutResult :
    ContextClear State.reset ∧ [0x00#8, 0x81#8].length < 2 ^ 32 :=
  ⟨witness_context_clear, by decide⟩

theorem witness_ReadPortShowsRegisters :
    (6 ≤ 6 ∧ 5 ≤ (5#3).toNat ∧ 5 ≤ (7#3).toNat) ∧
    (withInput (.readReg 7#3)).input = .readReg 7#3 :: [] := ⟨by decide, rfl⟩

theorem witness_StepRunsDecodedInstruction :
    (withInput (.command 0x1000004000#40)).input = .command 0x1000004000#40 :: [] ∧
    decode 0x1000004000#40 = .ok (.enc 0x4000#32) := by decide

theorem witness_IllegalWordSetsIllOnly :
    ((withInput (.command 0xF000000000#40)).input = .command 0xF000000000#40 :: [] ∧
      legal 0xF000000000#40 = false) ∧
    (0x0FFFFFFFFF#40).toNat / 2 ^ 36 = 0 ∧ 6 ≤ (0x6000000000#40).toNat / 2 ^ 36 ∧
    ((0x1100000000#40).toNat / 2 ^ 36 = 1 ∧ (0x1100000000#40).toNat / 2 ^ 32 % 2 ^ 4 ≠ 0) ∧
    ((0x2000000100#40).toNat / 2 ^ 36 = 2 ∧ (0x2000000100#40).toNat / 2 ^ 8 % 2 ^ 28 ≠ 0) ∧
    ((0x3000000001#40).toNat / 2 ^ 36 = 3 ∧ (0x3000000001#40).toNat % 2 ^ 36 ≠ 0) ∧
    ((0x5800000000#40).toNat / 2 ^ 36 = 5 ∧ (0x5800000000#40).toNat / 2 ^ 8 % 2 ^ 28 ≠ 0) := by
  decide

theorem witness_IdleStepKeepsState : State.reset.input = [] := rfl

theorem witness_LegalWordsAreTheOpcodeMap :
    decode 0x4F00000000#40 = .ok (.grp 0#32 15#4) ∧
    decode 0x5100000080#40 = .error (.reservedK 1#4) := by decide

/-- Also EncodeOfDecodeIsTheWord; one word per constructor. -/
theorem witness_OperandsAreTheWordsBits :
    decode 0x10FFFFFFFF#40 = .ok (.enc 0xFFFFFFFF#32) ∧ decode 0x20000000FF#40 = .ok (.dec 0xFF#8) ∧
    decode 0x3000000000#40 = .ok .dend ∧ decode 0x4F80000000#40 = .ok (.grp 0x80000000#32 15#4) ∧
    decode 0x5000000080#40 = .ok (.cfd 0x80#8) := by decide

theorem witness_GroupIsSevenBitsOfTheValue : 3 ≤ 3 ∧ 4 = 4 ∧ 5 ≤ 5 := by decide

theorem witness_GrpWritesGroupToResult : (0x4F00000000#40).toNat / 2 ^ 36 = 4 := by decide

theorem witness_CfdWritesFlagToResult :
    (0x5000000180#40).toNat / 2 ^ 36 = 5 ∧ (0x5000000180#40).toNat / 2 ^ 8 % 2 ^ 28 ≠ 0 := by decide

theorem witness_EncodedLengthByRange :
    (0x7F#32).toNat ≤ 0x7F ∧ (0x80 ≤ (0x80#32).toNat ∧ (0x3FFF#32).toNat ≤ 0x3FFF) ∧
    (0x4000 ≤ (0x4000#32).toNat ∧ (0x1FFFFF#32).toNat ≤ 0x1FFFFF) ∧
    (0x200000 ≤ (0x200000#32).toNat ∧ (0xFFFFFFF#32).toNat ≤ 0xFFFFFFF) ∧
    0x10000000 ≤ (0x10000000#32).toNat ∧ (0x80#32).toNat < 2 ^ 8 := by decide

/-- The boundary values of 40_group_rule.md R97's table. -/
theorem test_length_boundaries :
    [0#32, 0x7F#32, 0x80#32, 0x3FFF#32, 0x4000#32, 0x1FFFFF#32, 0x200000#32, 0xFFFFFFF#32,
      0x10000000#32, 0xFFFFFFFF#32].map nbytes = [1, 1, 2, 2, 3, 3, 4, 4, 5, 5] := by decide

theorem witness_TopGroupIsTheMostSignificant : nbytes 1#32 ≤ 1 ∧ (1#32 : Word) ≠ 0#32 := by decide

theorem witness_EncodingIsCanonical :
    (0x80#32 : Word) ≠ 0#32 ∧ vlq 0x80#32 = 0x81#8 :: [0x00#8] ∧
    vlq 0#32 = 0x00#8 :: [] ∧ payload 0x00#8 = 0#7 := by decide

theorem witness_TerminatingBytesDelimitValues : 1 < [0x80#32, 0#32].length := by decide

theorem witness_EncAppendsEncoding :
    (0x1100000000#40).toNat / 2 ^ 36 = 1 ∧ (0x1100000000#40).toNat / 2 ^ 32 % 2 ^ 4 ≠ 0 := by decide

/-- One state and byte per path of DEC, at the boundary of the carry, and an illegal form. -/
theorem witness_DecConsumesOneByte :
    { State.reset with decErr := true }.decErr = true ∧
    (State.reset.decErr = false ∧ 128 ≤ (0x80#8).toNat) ∧
    ((midValue 0x1FFFFFF#32 false).decErr = false ∧ (0x7F#8).toNat < 128 ∧
      (midValue 0x1FFFFFF#32 false).decOvf = false ∧
      (midValue 0x1FFFFFF#32 false).decAcc.toNat < 2 ^ 25) ∧
    ((midValue 0x2000000#32 false).decErr = false ∧ (0x00#8).toNat < 128 ∧
      2 ^ 25 ≤ (midValue 0x2000000#32 false).decAcc.toNat) ∧
    ((midValue 0#32 true).decErr = false ∧ (midValue 0#32 true).decOvf = true) ∧
    ((0x2100000005#40).toNat / 2 ^ 36 = 2 ∧ (0x2100000005#40).toNat / 2 ^ 8 % 2 ^ 28 ≠ 0) := by
  decide

theorem witness_DendReportsAndClears :
    (0x3100000000#40).toNat / 2 ^ 36 = 3 ∧ (0x3100000000#40).toNat % 2 ^ 36 ≠ 0 := by decide

theorem witness_DendAndResetLeaveContextClear : (withInput .reset).input = .reset :: [] := rfl

/-- Both clauses at the boundary: A = 0xFFFFFFFF and A = 2^32. -/
theorem witness_OverflowTrackingIsExact :
    (State.reset.decErr = false ∧ State.reset.decMid = false ∧ State.reset.decAcc = 0#32 ∧
      State.reset.decOvf = false) ∧
    ((∀ b ∈ [0x8F#8, 0xFF#8, 0xFF#8, 0xFF#8], cont b = true) ∧
      [0x8F#8, 0xFF#8, 0xFF#8, 0xFF#8] ≠ [] ∧ cont 0x7F#8 = false ∧
      accumulate ([0x8F#8, 0xFF#8, 0xFF#8, 0xFF#8].foldl accumulate 0) 0x7F#8 ≤ 0xFFFFFFFF) ∧
    (∀ b ∈ [0x90#8, 0x80#8, 0x80#8, 0x80#8], cont b = true) ∧ cont 0x00#8 = false ∧
    accumulate ([0x90#8, 0x80#8, 0x80#8, 0x80#8].foldl accumulate 0) 0x00#8 > 0xFFFFFFFF := by
  decide

/-- A transaction that is OK and one that is not, each below 2^32 bytes (P2's and P3's first). -/
theorem witness_DendNvalCountsTransactionWords :
    ContextClear State.reset ∧ [0x7F#8].length < 2 ^ 32 ∧ [0x00#8, 0x81#8].length < 2 ^ 32 ∧
    (after (runAll (decodeTransaction [0x7F#8]) State.reset)).dendCode = .ok ∧
    (after (runAll (decodeTransaction [0x00#8, 0x81#8]) State.reset)).dendCode ≠ .ok :=
  ⟨witness_context_clear, by decide⟩

theorem witness_UnterminatedStreamIsIncomplete :
    ContextClear State.reset ∧ cont 0x80#8 = true ∧ decodeRef [0x00#8] ≠ .error .overflow ∧
    decodeRef [0x90#8, 0x80#8, 0x80#8, 0x80#8, 0x00#8] = .error .overflow :=
  ⟨witness_context_clear, by decide⟩

theorem witness_LeadingZeroGroupsAddNothing :
    ContextClear State.reset ∧ [0x81#8, 0x00#8].getLast? = some 0x00#8 ∧ cont 0x00#8 = false ∧
    [0x01#8] ≠ [] := ⟨witness_context_clear, by decide⟩

theorem witness_BytesAfterOverflowAreIgnored :
    { State.reset with decErr := true }.decErr = true ∧ ContextClear State.reset :=
  ⟨rfl, witness_context_clear⟩

theorem witness_DecoderDoesNotTouchEncoder :
    (Instr.dec 0x81#8 = .dend ∨ ∃ b, Instr.dec 0x81#8 = .dec b) ∧
    SameDecoder State.reset { State.reset with result := 1#32 } :=
  ⟨.inr ⟨_, rfl⟩, rfl, rfl, rfl, rfl, rfl, rfl, rfl, rfl⟩

theorem witness_OtherInputsDoNotTouchDecoder :
    HostInput.reset ∉ [commandOf (.enc 1#32), .command 0#40, commandOf .dend] ∧
    SameDecoder State.reset { State.reset with ill := true } ∧
    ((∃ v, Instr.enc 1#32 = .enc v) ∨ (∃ v k, Instr.enc 1#32 = .grp v k) ∨
      ∃ b, Instr.enc 1#32 = .cfd b) :=
  ⟨by decide, ⟨rfl, rfl, rfl, rfl, rfl, rfl, rfl, rfl⟩, .inl ⟨_, rfl⟩⟩

theorem witness_EndedTransactionsLeaveContextClear :
    ContextClear State.reset ∧
    leavesOpen false [commandOf (.dec 0x81#8), commandOf (.enc 1#32), commandOf .dend] = false ∧
    leavesOpen false [commandOf (.dec 0x81#8)] = true := ⟨witness_context_clear, by decide⟩

/-- A state in the middle of a value, and the step of its next byte. -/
theorem witness_StepKeepsInvariants :
    Inv { midValue 0x1#32 false with input := [commandOf (.dec 0x00#8)] } ∧
    step { midValue 0x1#32 false with input := [commandOf (.dec 0x00#8)] } =
      .next { State.reset with decOut := [0x80#32], decNval := 1#32 } :=
  ⟨⟨by decide, by decide, by decide, by decide⟩, rfl⟩

theorem witness_ReachableStatesMeetInvariants : Reachable { State.reset with ill := true } :=
  .step (s := withInput (.command 0#40)) (.host [.command 0#40] .launch) rfl

theorem witness_StreamsAreAppendOnly :
    step (withInput (commandOf (.enc 0#32))) =
      .next { State.reset with encOut := [0x00#8], encLen := 1#3 } ∧
    run 1 (withInput (commandOf (.enc 0#32))) =
      .next { State.reset with encOut := [0x00#8], encLen := 1#3 } := ⟨rfl, rfl⟩

theorem witness_IllIsSetByIllegalWordsClearedByReset :
    step (withInput (.command 0#40)) = .next { State.reset with ill := true } := rfl

/-- One input per clause and field: each writes, and none is a reset. -/
theorem witness_OnlyTheirCommandsWriteRegisters :
    (after (step (withInput (commandOf (.grp 1#32 0#4))))).result ≠ 0#32 ∧
    (after (step (withInput (commandOf (.enc 1#32))))).encLen ≠ 0#3 ∧
    (after (step (withInput (commandOf .dend)))).dendCode ≠ .none ∧
    (after (step (withInput (commandOf (.dec 0x00#8))))).decOut ≠ [] ∧
    (after (step (withInput (.readReg 0#3)))).rdData ≠ [] ∧
    (after (step (withInput (commandOf (.dec 0x81#8))))).decAcc ≠ 0#32 ∧
    (after (step (withInput (commandOf (.dec 0x80#8))))).decMid ≠ false ∧
    (after (step { midValue 0x2000000#32 false with
      input := [commandOf (.dec 0x80#8)] })).decOvf ≠ false ∧
    (after (step { midValue 0#32 true with input := [commandOf (.dec 0x00#8)] })).decErr ≠ false ∧
    (after (step { State.reset with decNval := 1#32, input := [commandOf .dend] })).decNval ≠ 1#32 ∧
    (after (step (withInput (.command 0#40)))).ill ≠ false ∧
    (.command 0#40 : HostInput) ≠ .reset := by decide

theorem witness_MnemonicsWriteOnlyLegalWords :
    (AsmLine.dec 256).wellFormed = false ∧
    ((AsmLine.decode [0xFF]).wellFormed = true ∧ ∀ w, AsmLine.decode [0xFF] ≠ .word40 w) ∧
    0xFFFFFFFFFF < 2 ^ 40 := ⟨by decide, ⟨by decide, by simp⟩, by decide⟩

theorem witness_AssembledMnemonicDecodesToItsCommand :
    0xFFFFFFFF ≤ 0xFFFFFFFF ∧ 0xFF ≤ 0xFF ∧ 15 ≤ 15 := by decide

theorem witness_CommentsAndCaseDoNotMatter : ';' ∉ "DEND ".toList := by decide

end Sys2Proof.Tests
end

section
/-! PROOFS. 10_state.md: R39's invariants, the read port, and which inputs write which state element. -/

namespace Sys2Proof.Machine

/-! ### R39's invariants -/

/-- The invariants say nothing of the inputs still waiting. -/
theorem Inv.withInput {s : State} (h : Inv s) (xs : List HostInput) : Inv { s with input := xs } :=
  ⟨h.idle, h.failed, h.encLen, h.result⟩

theorem inv_reset : Inv State.reset :=
  ⟨fun _ => ⟨rfl, rfl⟩, fun _ => ⟨rfl, rfl, rfl⟩, by decide, by decide⟩

theorem inv_resetBlock (s : State) : Inv (resetBlock s) :=
  ⟨inv_reset.idle, inv_reset.failed, inv_reset.encLen, inv_reset.result⟩

theorem Inv.answerRead {s : State} (h : Inv s) (idx : BitVec 3) : Inv (answerRead idx s) :=
  ⟨h.idle, h.failed, h.encLen, h.result⟩

theorem Inv.raiseIllegalCommand {s : State} (h : Inv s) : Inv (raiseIllegalCommand s) :=
  ⟨h.idle, h.failed, h.encLen, h.result⟩

theorem Inv.setResult {s : State} (h : Inv s) {w : Word} (hw : w.toNat < 128) :
    Inv (setResult w s) :=
  ⟨h.idle, h.failed, h.encLen, hw⟩

theorem Inv.setEncLen {s : State} (h : Inv s) {n : Nat} (hn : n ≤ 5) : Inv (setEncLen n s) :=
  ⟨h.idle, h.failed, by simp only [setEncLen_encLen, BitVec.toNat_ofNat]; omega, h.result⟩

theorem Inv.emitGroups {s : State} (h : Inv s) (v : Word) (n : Nat) : Inv (emitGroups v n s) := by
  rw [emitGroups_eq]
  exact ⟨h.idle, h.failed, h.encLen, h.result⟩

/-- Inside a value both decoder invariants are about nothing, provided no failure is recorded. -/
theorem Inv.continueValue {s : State} (h : Inv s) (he : s.decErr = false) (acc : Word) (ovf : Bool) :
    Inv (continueValue acc ovf s) :=
  ⟨by simp, by simp [he], h.encLen, h.result⟩

/-- With the value cleared both decoder invariants hold whatever DEC_ERR is. -/
theorem inv_clearValue {s : State} (hl : s.encLen.toNat ≤ 5) (hr : s.result.toNat < 128) :
    Inv (clearValue s) :=
  ⟨fun _ => ⟨rfl, rfl⟩, fun _ => ⟨rfl, rfl, rfl⟩, hl, hr⟩

theorem Inv.execDec {s t : State} {b : Byte} (h : Inv s) (hx : execDec b s = .next t) : Inv t := by
  rcases execDec_cases b s with ⟨_, e⟩ | ⟨he, _, e⟩ | ⟨_, _, _, e⟩ | ⟨_, _, _, e⟩ <;>
    (rw [e] at hx; cases hx)
  · exact h
  · exact h.continueValue he _ _
  · exact inv_clearValue h.encLen h.result
  · exact inv_clearValue h.encLen h.result

theorem zext_group_lt (v : Word) (i : Nat) : ((group v i).setWidth 32).toNat < 128 := by
  have := (group v i).isLt
  simp only [BitVec.toNat_setWidth]
  omega

theorem zext_cont_lt (b : Byte) : ((BitVec.ofBool (cont b)).setWidth 32).toNat < 128 := by
  cases cont b <;> decide

/-- Every command keeps the invariants. -/
theorem Inv.exec {s t : State} {i : Instr} (h : Inv s) (hx : exec i s = .next t) : Inv t := by
  cases i with
  | enc v => cases hx; exact (h.emitGroups v _).setEncLen (nbytes_le_five v)
  | dec b => exact h.execDec hx
  | dend => cases hx; exact ⟨fun _ => ⟨rfl, rfl⟩, fun _ => ⟨rfl, rfl, rfl⟩, h.encLen, h.result⟩
  | grp v k => cases hx; exact h.setResult (zext_group_lt v _)
  | cfd b => cases hx; exact h.setResult (zext_cont_lt b)

/-- Settles O47: the launch state has a clear decoder and zero registers. -/
theorem invariantsHoldAtReset : Obligations.InvariantsHoldAtReset := inv_reset

/-- Settles O48, by what a step can do. -/
theorem stepKeepsInvariants : Obligations.StepKeepsInvariants := by
  intro s t h hs
  rcases step_cases hs with ⟨_, rfl⟩ | ⟨x, rest, _, hcase⟩
  · exact h
  rcases hcase with ⟨_, rfl⟩ | ⟨idx, _, rfl⟩ | ⟨_, _, _, _, rfl⟩ | ⟨_, _, _, _, hx⟩
  · exact inv_resetBlock _
  · exact (h.withInput rest).answerRead idx
  · exact (h.withInput rest).raiseIllegalCommand
  · exact (h.withInput rest).exec hx

/-- Settles O49, by induction on reachability. -/
theorem reachableStatesMeetInvariants : Obligations.ReachableStatesMeetInvariants := by
  intro s hr
  induction hr with
  | launch => exact inv_reset
  | host xs _ ih => exact ih.withInput _
  | step _ hs ih => exact stepKeepsInvariants _ _ ih hs

/-! ### The read port -/

/-- STATUS bit by bit (R25), its reserved bits 0 (R31). The proof writes the word's width as the sum of
its fields' widths, so that the append lemma applies to each field. -/
theorem statusWord_getLsbD (s : State) (i : Nat) :
    (statusWord s).getLsbD i =
      match i with
      | 0 => s.decMid
      | 1 => s.decOvf
      | 2 => s.decErr
      | 3 => s.dendCode.bits.getLsbD 0
      | 4 => s.dendCode.bits.getLsbD 1
      | 5 => s.ill
      | _ => false := by
  change BitVec.getLsbD (w := 26 + 1 + 2 + 1 + 1 + 1) (statusWord s) i = _
  simp only [statusWord, BitVec.getLsbD_append]
  match i with
  | 0 | 1 | 2 | 3 | 4 | 5 => simp
  | i + 6 => simp

theorem DendCode.bits_getLsbD_zero (d : DendCode) :
    d.bits.getLsbD 0 = decide (d = .ok ∨ d = .overflow) := by
  cases d <;> decide

theorem DendCode.bits_getLsbD_one (d : DendCode) :
    d.bits.getLsbD 1 = decide (d = .incomplete ∨ d = .overflow) := by
  cases d <;> decide

theorem readReg_reserved {idx : BitVec 3} (h : 5 ≤ idx.toNat) (s : State) :
    readReg idx s = 0#32 := by
  unfold readReg
  split
  case h_6 => rfl
  all_goals omega

theorem readReg_input (idx : BitVec 3) (s : State) (xs : List HostInput) :
    readReg idx { s with input := xs } = readReg idx s := rfl

theorem step_readReg {s : State} {idx : BitVec 3} {rest : List HostInput}
    (h : s.input = .readReg idx :: rest) :
    step s = .next { s with rdData := s.rdData ++ [readReg idx s], input := rest } := by
  rw [step_cons h, runInput, answerRead, readReg_input]

/-- Settles O4: STATUS by its bits, the other numbers by the port's table. -/
theorem readPortShowsRegisters : Obligations.ReadPortShowsRegisters := by
  intro s
  have hbit := statusWord_getLsbD s
  have hencLen : (readReg 2#3 s).toNat = s.encLen.toNat :=
    BitVec.toNat_setWidth_of_le (by decide)
  refine ⟨hbit 0, hbit 1, hbit 2, (hbit 3).trans s.dendCode.bits_getLsbD_zero,
    (hbit 4).trans s.dendCode.bits_getLsbD_one, hbit 5, fun i hi => ?_, rfl, hencLen, rfl, rfl,
    fun idx h => readReg_reserved h s, fun idx rest h => step_readReg h⟩
  obtain ⟨j, rfl⟩ := Nat.exists_eq_add_of_le' hi
  exact hbit (j + 6)

/-! ### Legality is decoding -/

/-- The decoder and the legality predicate of R77 agree. -/
theorem legal_of_decode_ok {c : CmdWord} {i : Instr} (h : decode c = .ok i) : legal c = true := by
  unfold decode at h
  split_ifs at h <;> simp_all [legal]

theorem legal_of_decode_error {c : CmdWord} {e : IllegalReason} (h : decode c = .error e) :
    legal c = false := by
  unfold decode at h
  split_ifs at h <;> simp_all [legal]

/-- Settles O51: of what a step can do, only an illegal word and a reset write ILL. -/
theorem illIsSetByIllegalWordsClearedByReset :
    Obligations.IllIsSetByIllegalWordsClearedByReset := by
  refine ⟨rfl, fun s t hs => ?_⟩
  rcases step_cases hs with ⟨hi, rfl⟩ | ⟨x, rest, hi, hcase⟩
  · simp [hi]
  rcases hcase with ⟨rfl, rfl⟩ | ⟨idx, rfl, rfl⟩ | ⟨c, e, rfl, hd, rfl⟩ | ⟨c, i, rfl, hd, hx⟩
  · simp [hi]
  · simp [hi]
  · simp [hi, legal_of_decode_error hd]
  · obtain ⟨hill, _, _⟩ := exec_frame hx
    simp [hi, legal_of_decode_ok hd, hill]

/-! ### Which commands write which state element -/

/-- What DEC does not write. -/
theorem execDec_frame {b : Byte} {s t : State} (h : execDec b s = .next t) :
    t.result = s.result ∧ t.encLen = s.encLen ∧ t.encOut = s.encOut ∧
      t.dendCode = s.dendCode ∧ t.dendNval = s.dendNval := by
  rcases execDec_cases b s with ⟨_, e⟩ | ⟨_, _, e⟩ | ⟨_, _, _, e⟩ | ⟨_, _, _, e⟩ <;>
    (rw [e] at h; cases h; simp)

section
variable {i : Instr} {s t : State}

theorem grp_or_cfd_of_result_ne (h : exec i s = .next t) (hne : t.result ≠ s.result) :
    (∃ v k, i = .grp v k) ∨ ∃ b, i = .cfd b := by
  cases i with
  | grp v k => exact .inl ⟨v, k, rfl⟩
  | cfd b => exact .inr ⟨b, rfl⟩
  | dec b => exact absurd (execDec_frame h).1 hne
  | _ => cases h; simp [emitGroups_eq] at hne

theorem enc_of_encoder_ne (h : exec i s = .next t)
    (hne : t.encLen ≠ s.encLen ∨ t.encOut ≠ s.encOut) : ∃ v, i = .enc v := by
  cases i with
  | enc v => exact ⟨v, rfl⟩
  | dec b =>
    obtain ⟨_, hlen, hout, _, _⟩ := execDec_frame h
    simp [hlen, hout] at hne
  | _ => cases h; simp at hne

theorem dend_of_report_ne (h : exec i s = .next t)
    (hne : t.dendCode ≠ s.dendCode ∨ t.dendNval ≠ s.dendNval) : i = .dend := by
  cases i with
  | dend => rfl
  | dec b =>
    obtain ⟨_, _, _, hcode, hnval⟩ := execDec_frame h
    simp [hcode, hnval] at hne
  | _ => cases h; simp [emitGroups_eq] at hne

theorem dend_or_dec_of_context_ne (h : exec i s = .next t)
    (hne : t.decAcc ≠ s.decAcc ∨ t.decMid ≠ s.decMid ∨ t.decOvf ≠ s.decOvf ∨
      t.decErr ≠ s.decErr ∨ t.decNval ≠ s.decNval) : i = .dend ∨ ∃ b, i = .dec b := by
  cases i with
  | dend => exact .inl rfl
  | dec b => exact .inr ⟨b, rfl⟩
  | _ => cases h; simp [emitGroups_eq] at hne

theorem dec_of_decOut_ne (h : exec i s = .next t) (hne : t.decOut ≠ s.decOut) :
    ∃ b, i = .dec b := by
  cases i with
  | dec b => exact ⟨b, rfl⟩
  | _ => cases h; simp [emitGroups_eq] at hne

end

/-- Settles O52: a register read writes its record only, an illegal word ILL only, and a command what
the lemmas above leave to it. -/
theorem onlyTheirCommandsWriteRegisters : Obligations.OnlyTheirCommandsWriteRegisters := by
  intro s t x rest hin hs hreset
  rcases step_cases hs with ⟨hnil, _⟩ | ⟨x', rest', hcons, hcase⟩
  · simp [hin] at hnil
  obtain ⟨rfl, rfl⟩ : x = x' ∧ rest = rest' := by simpa [hin] using hcons
  rcases hcase with ⟨rfl, _⟩ | ⟨idx, rfl, rfl⟩ | ⟨c, e, rfl, hd, rfl⟩ | ⟨c, i, rfl, hd, hx⟩
  · exact absurd rfl hreset
  · simp
  · simp [legal_of_decode_error hd]
  · obtain ⟨hill, hrd, _⟩ := exec_frame hx
    refine ⟨fun hne => ⟨c, i, rfl, hd, grp_or_cfd_of_result_ne hx hne⟩, fun hne => ?_,
      fun hne => ?_, fun hne => ⟨c, i, rfl, hd, dend_or_dec_of_context_ne hx hne⟩,
      fun hne => absurd hill hne, fun hne => ?_, fun hne => absurd hrd hne⟩
    · obtain ⟨v, rfl⟩ := enc_of_encoder_ne hx hne
      exact ⟨c, v, rfl, hd⟩
    · obtain rfl := dend_of_report_ne hx hne
      exact ⟨c, rfl, hd⟩
    · obtain ⟨b, rfl⟩ := dec_of_decOut_ne hx hne
      exact ⟨c, b, rfl, hd⟩

end Sys2Proof.Machine
end

section
/-! PROOFS. 20_memory.md: one step and one read, what each input leaves of the decoder and of the two
streams. -/

namespace Sys2Proof.Machine

/-! ### The word of a command decodes to the command -/

theorem opField_mkWord (op k : BitVec 4) (x : Word) : opField (mkWord op k x) = op := by
  apply BitVec.eq_of_toNat_eq
  rw [opField_toNat, mkWord_toNat]
  omega

theorem kField_mkWord (op k : BitVec 4) (x : Word) : kField (mkWord op k x) = k := by
  apply BitVec.eq_of_toNat_eq
  rw [kField_toNat, mkWord_toNat]
  omega

theorem operandField_mkWord (op k : BitVec 4) (x : Word) : operandField (mkWord op k x) = x := by
  apply BitVec.eq_of_toNat_eq
  rw [operandField_toNat, mkWord_toNat]
  omega

theorem byteField_mkWord (op k : BitVec 4) (b : Byte) :
    byteField (mkWord op k (b.setWidth 32)) = b := by
  apply BitVec.eq_of_toNat_eq
  rw [byteField_toNat, mkWord_toNat, BitVec.toNat_setWidth]
  omega

theorem upperField_mkWord (op k : BitVec 4) (b : Byte) :
    upperField (mkWord op k (b.setWidth 32)) = 0#24 := by
  apply BitVec.eq_of_toNat_eq
  rw [upperField_toNat, mkWord_toNat, BitVec.toNat_setWidth, BitVec.toNat_ofNat]
  omega

/-- R86's word goes back through the decoder of R75 to R77, field by field. -/
theorem decode_encode (i : Instr) : decode (encode i) = .ok i := by
  cases i with
  | dec b | cfd b =>
    simp [decode, encode, opField_mkWord, kField_mkWord, byteField_mkWord, upperField_mkWord]
  | _ => simp [decode, encode, opField_mkWord, kField_mkWord, operandField_mkWord]

theorem runInput_commandOf (i : Instr) (s : State) : runInput (commandOf i) s = exec i s :=
  runCommand_ok (decode_encode i) s

/-! ### One step, one read -/

/-- Settles O6: a step takes the next input, and a legal word runs its command. -/
theorem stepRunsDecodedInstruction : Obligations.StepRunsDecodedInstruction := by
  intro s c rest i hin hd
  rw [step_cons hin, runInput, runCommand_ok hd]

theorem tableWord_toNat (c : CmdWord) : tableWord 40 c.toNat = some c := by
  simp [tableWord, Config.cmdWidth, Nat.mod_eq_of_lt c.isLt, c.isLt]

theorem withFetchWord_toNat (s : State) (c : CmdWord) :
    s.withFetchWord 40 c.toNat = issueNext c s := by
  rw [State.withFetchWord, tableWord_toNat]

/-- Settles O7: the step takes the placed word and leaves the inputs that waited before it. -/
theorem fetchWordIsTheNextCommand : Obligations.FetchWordIsTheNextCommand := by
  intro s c
  rw [withFetchWord_toNat, step_cons (issueNext_input c s)]
  rfl

/-- The read port does not show the record of its own answers. -/
theorem readReg_answerRead (idx idx' : BitVec 3) (s : State) :
    readReg idx (answerRead idx' s) = readReg idx s := rfl

theorem runAll_readReg_twice (idx : BitVec 3) (s : State) :
    runAll [.readReg idx, .readReg idx] s =
      .next { s with rdData := s.rdData ++ [readReg idx s, readReg idx s] } := by
  rw [runAll_cons rfl, runAll_cons rfl, runAll_nil, answerRead, readReg_answerRead,
    answerRead_rdData, List.append_assoc]
  rfl

/-- Settles O5: both reads see the state the command left, whose record is still the one before it. -/
theorem readAfterCommandSeesItAndRepeats : Obligations.ReadAfterCommandSeesItAndRepeats := by
  intro i idx s
  obtain ⟨u, hu⟩ := exec_next i s
  obtain ⟨_, hrd, _⟩ := exec_frame hu
  have hcmd : runInput (commandOf i) s = .next u := by rw [runInput_commandOf, hu]
  exact ⟨u, _, hu, by rw [runAll_cons hcmd, runAll_readReg_twice], by rw [hrd]⟩

/-! ### The decoder and the other inputs -/

theorem SameDecoder.trans {s t u : State} (h : SameDecoder s t) (h' : SameDecoder t u) :
    SameDecoder s u := by
  obtain ⟨hacc, hmid, hovf, herr, hnval, hdnval, hcode, hout⟩ := h
  unfold SameDecoder
  rwa [hacc, hmid, hovf, herr, hnval, hdnval, hcode, hout]

/-- The decoder context is part of what `SameDecoder` compares. -/
theorem SameDecoder.contextClear {s t : State} (h : SameDecoder t s) (hs : ContextClear s) :
    ContextClear t := by
  obtain ⟨hacc, hmid, hovf, herr, hnval, _, _, _⟩ := h
  unfold ContextClear
  rwa [hacc, hmid, hovf, herr, hnval]

theorem HostInput.isDecoder_eq_true_iff {x : HostInput} :
    x.isDecoder = true ↔
      ∃ c i, x = .command c ∧ decode c = .ok i ∧ (i = .dend ∨ ∃ b, i = .dec b) := by
  cases x with
  | reset | readReg _ => simp [HostInput.isDecoder]
  | command c =>
    cases hd : decode c with
    | error e => simp [HostInput.isDecoder, hd]
    | ok i => cases i <;> simp [HostInput.isDecoder, hd]

/-- R62, the write half: ENC, GRP and CFD leave the decoder. -/
theorem exec_sameDecoder {i : Instr} {s t : State} (h : exec i s = .next t)
    (hi : ¬(i = .dend ∨ ∃ b, i = .dec b)) : SameDecoder t s := by
  cases i with
  | dec b => exact absurd (.inr ⟨b, rfl⟩) hi
  | dend => exact absurd (.inl rfl) hi
  | _ => cases h; simp [SameDecoder, emitGroups_eq]

/-- Any input but DEC, DEND and a reset leaves the decoder. -/
theorem runInput_sameDecoder {x : HostInput} {s t : State} (h : runInput x s = .next t)
    (hx : x.isDecoder = false) (hr : x ≠ .reset) : SameDecoder t s := by
  cases x with
  | reset => exact absurd rfl hr
  | readReg idx => cases h; simp [SameDecoder]
  | command c =>
    cases hd : decode c with
    | error e => rw [runInput, runCommand_error hd] at h; cases h; simp [SameDecoder]
    | ok i =>
      rw [runInput, runCommand_ok hd] at h
      refine exec_sameDecoder h fun hi => ?_
      have : (HostInput.command c).isDecoder = true :=
        HostInput.isDecoder_eq_true_iff.2 ⟨c, i, rfl, hd, hi⟩
      simp [hx] at this

/-- DEC reads nothing but the decoder: its path is chosen, and its writes are computed, from it. -/
theorem SameDecoder.execDec {b : Byte} {s s' t t' : State} (hs : SameDecoder s s')
    (h : execDec b s = .next t) (h' : execDec b s' = .next t') : SameDecoder t t' := by
  obtain ⟨hacc, hmid, hovf, herr, hnval, hdnval, hcode, hout⟩ := hs
  rw [Machine.execDec, ← hacc, ← hovf, ← herr] at h'
  rcases execDec_cases b s with ⟨he, e⟩ | ⟨he, hc, e⟩ | ⟨he, hc, ho, e⟩ | ⟨he, hc, ho, e⟩ <;>
    (rw [e] at h; cases h)
  · simp only [he] at h'
    cases h'; exact ⟨hacc, hmid, hovf, herr, hnval, hdnval, hcode, hout⟩
  · simp only [he, hc] at h'
    cases h'; simp [SameDecoder, *]
  · simp only [he, hc, ho] at h'
    cases h'; simp [SameDecoder, *]
  · simp only [he, hc, ho] at h'
    cases h'; simp [SameDecoder, *]

/-- DEND reports and clears from the decoder alone. -/
theorem SameDecoder.execDend {s s' t t' : State} (hs : SameDecoder s s')
    (h : execDend s = .next t) (h' : execDend s' = .next t') : SameDecoder t t' := by
  cases h; cases h'
  obtain ⟨_, hmid, _, herr, hnval, _, _, hout⟩ := hs
  simp [SameDecoder, dendResult, hmid, herr, hnval, hout]

/-- A DEC or DEND input has one effect on the decoder in two states that agree on it. -/
theorem SameDecoder.runInput {x : HostInput} {s s' t t' : State} (hs : SameDecoder s s')
    (hx : x.isDecoder = true) (h : runInput x s = .next t) (h' : runInput x s' = .next t') :
    SameDecoder t t' := by
  obtain ⟨c, i, rfl, hd, rfl | ⟨b, rfl⟩⟩ := HostInput.isDecoder_eq_true_iff.1 hx <;>
    rw [Machine.runInput, runCommand_ok hd] at h h'
  · exact hs.execDend h h'
  · exact hs.execDec h h'

/-- The first half of O45, by induction on the inputs: a DEC or DEND word keeps the two runs in
agreement, and any other input changes nothing of the decoder on the one side that runs it. -/
theorem runAll_filter_isDecoder (xs : List HostInput) {s s' : State} (hr : .reset ∉ xs)
    (hs : SameDecoder s s') :
    ∃ t t', runAll xs s = .next t ∧
      runAll (xs.filter fun x => x.isDecoder) s' = .next t' ∧ SameDecoder t t' := by
  induction xs generalizing s s' with
  | nil => exact ⟨s, s', rfl, rfl, hs⟩
  | cons x xs ih =>
    obtain ⟨hx, hxs⟩ : HostInput.reset ≠ x ∧ HostInput.reset ∉ xs := by simpa using hr
    obtain ⟨u, hu, _⟩ := runInput_next x s
    rw [runAll_cons hu]
    cases hd : x.isDecoder with
    | false =>
      rw [List.filter_cons_of_neg (by simp [hd])]
      exact ih hxs ((runInput_sameDecoder hu hd hx.symm).trans hs)
    | true =>
      obtain ⟨u', hu', _⟩ := runInput_next x s'
      rw [List.filter_cons_of_pos hd, runAll_cons hu']
      exact ih hxs (hs.runInput hd hu hu')

/-- Settles O45: the runs by induction on the inputs; ENC, GRP and CFD compute what they write from
their operands and the streams alone. -/
theorem otherInputsDoNotTouchDecoder : Obligations.OtherInputsDoNotTouchDecoder := by
  refine ⟨fun xs s s' hr hs => runAll_filter_isDecoder xs hr hs, fun i s s' hi => ?_⟩
  rcases hi with ⟨v, rfl⟩ | ⟨v, k, rfl⟩ | ⟨b, rfl⟩
  · exact ⟨_, rfl, by simp [exec, execEnc, emitGroups_eq, setEncLen]⟩
  · exact ⟨_, rfl, rfl⟩
  · exact ⟨_, rfl, rfl⟩

/-! ### Ended transactions -/

theorem contextClear_clearContext (s : State) : ContextClear (clearContext s) :=
  ⟨rfl, rfl, rfl, rfl, rfl⟩

theorem contextClear_resetBlock (s : State) : ContextClear (resetBlock s) :=
  ⟨rfl, rfl, rfl, rfl, rfl⟩

/-- Inputs that are neither DEC, DEND nor a reset neither open nor end a transaction. -/
theorem HostInput.openAfter_of_not_isDecoder {x : HostInput} (hx : x.isDecoder = false)
    (hr : x ≠ .reset) (isOpen : Bool) : x.openAfter isOpen = isOpen := by
  cases x with
  | reset => exact absurd rfl hr
  | readReg idx => rfl
  | command c =>
    cases hd : decode c with
    | error e => simp [HostInput.openAfter, hd]
    | ok i =>
      cases i with
      | dec b | dend => simp [HostInput.isDecoder, hd] at hx
      | _ => simp [HostInput.openAfter, hd]

/-- The invariant behind O46, "no transaction open means a clear context", is kept by every input. -/
theorem runInput_keeps_clear_unless_open {x : HostInput} {s t : State} {isOpen : Bool}
    (hs : isOpen = false → ContextClear s) (h : runInput x s = .next t)
    (hopen : x.openAfter isOpen = false) : ContextClear t := by
  by_cases hr : x = .reset
  · subst hr; cases h; exact contextClear_resetBlock s
  cases hx : x.isDecoder with
  | false =>
    rw [HostInput.openAfter_of_not_isDecoder hx hr] at hopen
    exact (runInput_sameDecoder h hx hr).contextClear (hs hopen)
  | true =>
    obtain ⟨c, i, rfl, hd, rfl | ⟨b, rfl⟩⟩ := HostInput.isDecoder_eq_true_iff.1 hx
    · rw [runInput, runCommand_ok hd] at h
      cases h; exact contextClear_clearContext _
    · simp [HostInput.openAfter, hd] at hopen

theorem runAll_contextClear (xs : List HostInput) {s : State} {isOpen : Bool}
    (hs : isOpen = false → ContextClear s) (hxs : leavesOpen isOpen xs = false) :
    ∃ t, runAll xs s = .next t ∧ ContextClear t := by
  induction xs generalizing s isOpen with
  | nil => exact ⟨s, rfl, hs hxs⟩
  | cons x xs ih =>
    obtain ⟨u, hu, _⟩ := runInput_next x s
    rw [runAll_cons hu]
    exact ih (runInput_keeps_clear_unless_open hs hu) hxs

/-- Settles O46, from the invariant at its start, no transaction open. -/
theorem endedTransactionsLeaveContextClear : Obligations.EndedTransactionsLeaveContextClear :=
  fun xs _ hs hxs => runAll_contextClear xs (fun _ => hs) hxs

/-! ### The output streams -/

/-- From `s` to `t` the streams only grew at their end, within R53's bounds for one step. -/
def AppendsOneResult (s t : State) : Prop :=
  ∃ (bs : List Byte) (ws : List Word), t.encOut = s.encOut ++ bs ∧ t.decOut = s.decOut ++ ws ∧
    bs.length ≤ 5 ∧ ws.length ≤ 1 ∧ (bs = [] ∨ ws = [])

theorem appendsOneResult_of_eq {s t : State} (he : t.encOut = s.encOut) (hd : t.decOut = s.decOut) :
    AppendsOneResult s t :=
  ⟨[], [], by simp [he], by simp [hd], by simp, by simp, .inl rfl⟩

/-- ENC appends its value's bytes, DEC at most one word, the other commands nothing. -/
theorem exec_appendsOneResult {i : Instr} {s t : State} (h : exec i s = .next t) :
    AppendsOneResult s t := by
  cases i with
  | enc v =>
    cases h
    exact ⟨vlq v, [], by simp [emitGroups_eq, vlq], by simp [emitGroups_eq],
      by simp [vlq, nbytes_le_five], by simp, .inr rfl⟩
  | dec b =>
    rw [exec] at h
    rcases execDec_cases b s with ⟨_, e⟩ | ⟨_, _, e⟩ | ⟨_, _, _, e⟩ | ⟨_, _, _, e⟩ <;>
      (rw [e] at h; cases h)
    · exact appendsOneResult_of_eq rfl rfl
    · exact appendsOneResult_of_eq rfl rfl
    · exact appendsOneResult_of_eq rfl rfl
    · exact ⟨[], [accNext s.decAcc b], by simp, rfl, by simp, by simp, .inl rfl⟩
  | _ => cases h; exact appendsOneResult_of_eq rfl rfl

theorem step_appendsOneResult {s t : State} (h : step s = .next t) : AppendsOneResult s t := by
  rcases step_cases h with ⟨_, rfl⟩ | ⟨x, rest, _, hcase⟩
  · exact appendsOneResult_of_eq rfl rfl
  rcases hcase with ⟨_, rfl⟩ | ⟨_, _, rfl⟩ | ⟨_, _, _, _, rfl⟩ | ⟨_, _, _, _, hx⟩
  · exact appendsOneResult_of_eq rfl rfl
  · exact appendsOneResult_of_eq rfl rfl
  · exact appendsOneResult_of_eq rfl rfl
  · exact (exec_appendsOneResult hx :)

/-- A run of one step more that ends in a next state took its first step. -/
theorem step_of_run_succ {n : Nat} {s u : State} (h : run (n + 1) s = .next u) :
    ∃ t, step s = .next t ∧ run n t = .next u := by
  cases hs : step s with
  | next t => exact ⟨t, rfl, by rwa [run_succ hs] at h⟩
  | fault f => exact nomatch f
  | refused r => simp [run, hs] at h

theorem run_streams_grow {n : Nat} {s t : State} (h : run n s = .next t) :
    s.encOut <+: t.encOut ∧ s.decOut <+: t.decOut := by
  induction n generalizing s with
  | zero => cases h; exact ⟨by rfl, by rfl⟩
  | succ n ih =>
    obtain ⟨u, hu, hrun⟩ := step_of_run_succ h
    obtain ⟨bs, ws, hbs, hws, _⟩ := step_appendsOneResult hu
    obtain ⟨henc, hdec⟩ := ih hrun
    exact ⟨.trans ⟨bs, hbs.symm⟩ henc, .trans ⟨ws, hws.symm⟩ hdec⟩

/-- Settles O50: the bounds by what a step can do, the runs by induction on their length. -/
theorem streamsAreAppendOnly : Obligations.StreamsAreAppendOnly := by
  refine ⟨fun n s t h => run_streams_grow h, fun s t h => ?_⟩
  obtain ⟨bs, ws, hbs, hws, hb, hw, hor⟩ := step_appendsOneResult h
  refine ⟨by simpa [hbs] using hb, by simpa [hws] using hw, ?_⟩
  rcases hor with rfl | rfl
  · exact .inl (by simpa using hbs)
  · exact .inr (by simpa using hws)

end Sys2Proof.Machine
end

section
/-! PROOFS. 30_encoding.md: command words and their legality, the end of a value in a stream, and
the assembler. -/

namespace Sys2Proof.Machine

/-! ### Encoding and decoding are inverse -/

/-- The operands' widths are the ranges of R81. -/
theorem instr_wellFormed (i : Instr) : i.wellFormed = true := by
  have hv (v : Word) : inInteger v.toNat = true := decide_eq_true (Nat.le_of_lt_succ v.isLt)
  have hb (b : Byte) : inByte b.toNat = true := decide_eq_true (Nat.le_of_lt_succ b.isLt)
  have hk (k : BitVec 4) : inIndex k.toNat = true := decide_eq_true (Nat.le_of_lt_succ k.isLt)
  cases i with
  | enc v => exact hv v
  | dec b | cfd b => exact hb b
  | dend => rfl
  | grp v k => exact Bool.and_eq_true_iff.2 ⟨hv v, hk k⟩

theorem legal_encode (i : Instr) : legal (encode i) = true :=
  legal_of_decode_ok (decode_encode i)

/-- Settles O13: the fields of `(OP << 36) | (K << 32) | OPERAND` are OP, K and OPERAND. -/
theorem decodeOfEncodeIsTheInstruction : Obligations.DecodeOfEncodeIsTheInstruction :=
  fun i => ⟨instr_wellFormed i, legal_encode i, decode_encode i⟩

/-- A word has no bits beside its three fields. -/
theorem mkWord_fields (c : CmdWord) : mkWord (opField c) (kField c) (operandField c) = c := by
  apply BitVec.eq_of_toNat_eq
  rw [mkWord_toNat, opField_toNat, kField_toNat, operandField_toNat]
  omega

theorem byteField_setWidth {c : CmdWord} (h : upperField c = 0#24) :
    (byteField c).setWidth 32 = operandField c := by
  have hu : (upperField c).toNat = 0 := by rw [h]; rfl
  rw [upperField_toNat] at hu
  apply BitVec.eq_of_toNat_eq
  rw [BitVec.toNat_setWidth, byteField_toNat, operandField_toNat]
  omega

/-- The decoder checks every field that the command does not carry. -/
theorem encode_of_decode {c : CmdWord} {i : Instr} (h : decode c = .ok i) : encode i = c := by
  conv_rhs => rw [← mkWord_fields c]
  unfold decode at h
  split_ifs at h with hop hk hop hk hu hop hk hx hop hop hk hu <;> cases h
  · rw [encode, hop, not_not.1 hk]
  · rw [encode, hop, not_not.1 hk, byteField_setWidth (not_not.1 hu)]
  · rw [encode, hop, not_not.1 hk, not_not.1 hx]
  · rw [encode, hop]
  · rw [encode, hop, not_not.1 hk, byteField_setWidth (not_not.1 hu)]

/-- Settles O14: what the decoder drops it has found to be 0. -/
theorem encodeOfDecodeIsTheWord : Obligations.EncodeOfDecodeIsTheWord :=
  fun _ _ h => encode_of_decode h

/-! ### The word of a command as a number -/

theorem encode_enc_toNat (v : Word) : (encode (.enc v)).toNat = 1 * 2 ^ 36 + v.toNat := by
  rw [encode, mkWord_toNat]; rfl

theorem setWidth_byte_toNat (b : Byte) : (b.setWidth 32).toNat = b.toNat :=
  BitVec.toNat_setWidth_of_le (by decide)

theorem encode_dec_toNat (b : Byte) : (encode (.dec b)).toNat = 2 * 2 ^ 36 + b.toNat := by
  rw [encode, mkWord_toNat, setWidth_byte_toNat]; rfl

theorem encode_dend_toNat : (encode .dend).toNat = 3 * 2 ^ 36 := by
  rw [encode, mkWord_toNat]; rfl

theorem encode_grp_toNat (v : Word) (k : BitVec 4) :
    (encode (.grp v k)).toNat = 4 * 2 ^ 36 + k.toNat * 2 ^ 32 + v.toNat := by
  rw [encode, mkWord_toNat]; rfl

theorem encode_cfd_toNat (b : Byte) : (encode (.cfd b)).toNat = 5 * 2 ^ 36 + b.toNat := by
  rw [encode, mkWord_toNat, setWidth_byte_toNat]; rfl

/-- Settles O15: R86's shifts and ors are a sum, and the examples are evaluated. -/
theorem wordOfMnemonic : Obligations.WordOfMnemonic :=
  ⟨encode_enc_toNat, encode_dec_toNat, encode_dend_toNat, encode_grp_toNat, encode_cfd_toNat,
    by decide, by decide, by decide, by decide, by decide⟩

/-- Settles O16: each word is the one that `wordOfMnemonic` gives for its command. -/
theorem exampleWordsDecode : Obligations.ExampleWordsDecode := by
  obtain ⟨_, _, _, _, _, henc, hdec, hdend, hgrp, hcfd⟩ := wordOfMnemonic
  exact ⟨henc ▸ decode_encode _, hdec ▸ decode_encode _, hdend ▸ decode_encode _,
    hgrp ▸ decode_encode _, hcfd ▸ decode_encode _⟩

/-- Settles O12: the word is the command's, whose operands are digits of its number. -/
theorem operandsAreTheWordsBits : Obligations.OperandsAreTheWordsBits := by
  intro c i h
  rw [← encode_of_decode h]
  cases i with
  | enc v => simp only [encode_enc_toNat]; omega
  | dec b => simp only [encode_dec_toNat]; omega
  | dend => simp only [encode_dend_toNat]; omega
  | grp v k => simp only [encode_grp_toNat]; omega
  | cfd b => simp only [encode_cfd_toNat]; omega

/-! ### Legality on the word's number, and the opcode table -/

/-- R77 with each field as digits of the word's number. -/
theorem legal_iff (c : CmdWord) :
    legal c = true ↔
      (c.toNat / 2 ^ 36 = 1 ∧ c.toNat / 2 ^ 32 % 2 ^ 4 = 0) ∨
      (c.toNat / 2 ^ 36 = 2 ∧ c.toNat / 2 ^ 32 % 2 ^ 4 = 0 ∧ c.toNat / 2 ^ 8 % 2 ^ 24 = 0) ∨
      (c.toNat / 2 ^ 36 = 3 ∧ c.toNat / 2 ^ 32 % 2 ^ 4 = 0 ∧ c.toNat % 2 ^ 32 = 0) ∨
      c.toNat / 2 ^ 36 = 4 ∨
      (c.toNat / 2 ^ 36 = 5 ∧ c.toNat / 2 ^ 32 % 2 ^ 4 = 0 ∧ c.toNat / 2 ^ 8 % 2 ^ 24 = 0) := by
  rw [← opField_toNat, ← kField_toNat, ← upperField_toNat, ← operandField_toNat]
  simp only [legal, Bool.or_eq_true, Bool.and_eq_true, beq_iff_eq, ← BitVec.toNat_inj,
    BitVec.toNat_ofNat, or_assoc, and_assoc]

theorem decode_error_of_illegal {c : CmdWord} (h : legal c = false) : ∃ e, decode c = .error e := by
  cases hd : decode c with
  | error e => exact ⟨e, rfl⟩
  | ok i => simp [legal_of_decode_ok hd] at h

theorem step_illegal {s : State} {c : CmdWord} {rest : List HostInput}
    (hin : s.input = .command c :: rest) (h : legal c = false) :
    step s = .next { s with ill := true, input := rest } := by
  obtain ⟨e, he⟩ := decode_error_of_illegal h
  rw [step_cons hin, runInput, runCommand_error he, raiseIllegalCommand]

/-- Settles O8: the step by what an illegal word runs, the encodings by R77 on the word's number. -/
theorem illegalWordSetsIllOnly : Obligations.IllegalWordSetsIllOnly := by
  refine ⟨fun s c rest hin h => step_illegal hin h, fun c => ?_⟩
  simp only [← Bool.not_eq_true, legal_iff]
  refine ⟨?_, ?_, ?_, ?_, ?_, ?_⟩ <;> omega

/-- The bits from `n` up that a row's mask keeps are those of its pattern. -/
theorem toNat_of_matchesWord {r : OpcodeRow} {c : CmdWord} {n : Nat}
    (hmask : r.mask = BitVec.allOnes 40 <<< n) (h : r.matchesWord c = true) :
    c.toNat / 2 ^ n = r.pattern.toNat / 2 ^ n := by
  have hlt : c.toNat / 2 ^ n * 2 ^ n < 2 ^ 40 := (Nat.div_mul_le_self _ _).trans_lt c.isLt
  rw [OpcodeRow.matchesWord, beq_iff_eq, hmask, ← BitVec.shiftLeft_ushiftRight] at h
  rw [← h, BitVec.toNat_shiftLeft, BitVec.toNat_ushiftRight, Nat.shiftRight_eq_div_pow,
    Nat.shiftLeft_eq, Nat.mod_eq_of_lt hlt, Nat.mul_div_cancel _ (Nat.two_pow_pos n)]

/-- A word that matches a row is the word of a command of the row. -/
theorem encode_of_matchesWord {r : OpcodeRow} (hr : r ∈ opcodeTable) {c : CmdWord}
    (h : r.matchesWord c = true) : ∃ i, encode i = c ∧ r.mnemonic = i.mnemonic := by
  simp only [opcodeTable, List.mem_cons, List.not_mem_nil, or_false] at hr
  rcases hr with rfl | rfl | rfl | rfl | rfl
  · have hc := toNat_of_matchesWord (n := 32) (by decide) h
    refine ⟨.enc (operandField c), BitVec.eq_of_toNat_eq ?_, rfl⟩
    simp only [encode_enc_toNat, operandField_toNat, BitVec.toNat_ofNat] at hc ⊢; omega
  · have hc := toNat_of_matchesWord (n := 8) (by decide) h
    refine ⟨.dec (byteField c), BitVec.eq_of_toNat_eq ?_, rfl⟩
    simp only [encode_dec_toNat, byteField_toNat, BitVec.toNat_ofNat] at hc ⊢; omega
  · have hc := toNat_of_matchesWord (n := 0) (by decide) h
    refine ⟨.dend, BitVec.eq_of_toNat_eq ?_, rfl⟩
    simp only [encode_dend_toNat, BitVec.toNat_ofNat] at hc ⊢; omega
  · have hc := toNat_of_matchesWord (n := 36) (by decide) h
    refine ⟨.grp (operandField c) (kField c), BitVec.eq_of_toNat_eq ?_, rfl⟩
    simp only [encode_grp_toNat, operandField_toNat, kField_toNat, BitVec.toNat_ofNat] at hc ⊢
    omega
  · have hc := toNat_of_matchesWord (n := 8) (by decide) h
    refine ⟨.cfd (byteField c), BitVec.eq_of_toNat_eq ?_, rfl⟩
    simp only [encode_cfd_toNat, byteField_toNat, BitVec.toNat_ofNat] at hc ⊢; omega

/-- The other direction, for every command: the cases of `Laws.TableRow`. -/
theorem tableRow_statement (i : Instr) : Laws.TableRow.Statement i := by
  cases i with
  | enc v => exact Laws.TableRow.enc v
  | dec b => exact Laws.TableRow.dec b
  | dend => exact Laws.TableRow.dend
  | grp v k => exact Laws.TableRow.grp v k
  | cfd b => exact Laws.TableRow.cfd b

theorem opcodeTable_row_of_mnemonic :
    ∀ r ∈ opcodeTable, ∀ r' ∈ opcodeTable, r.mnemonic = r'.mnemonic → r = r' := by decide

/-- The rows a word matches are those of the command it decodes to. -/
theorem matchesWord_iff_decode {r : OpcodeRow} (hr : r ∈ opcodeTable) (c : CmdWord) :
    r.matchesWord c = true ↔ ∃ i, decode c = .ok i ∧ r.mnemonic = i.mnemonic := by
  constructor
  · intro h
    obtain ⟨i, rfl, hi⟩ := encode_of_matchesWord hr h
    exact ⟨i, decode_encode i, hi⟩
  · rintro ⟨i, hd, hi⟩
    obtain ⟨r', hr', hi', hm⟩ := tableRow_statement i
    obtain rfl := opcodeTable_row_of_mnemonic r hr r' hr' (hi.trans hi'.symm)
    rwa [encode_of_decode hd] at hm

theorem filter_matchesWord_of_error {c : CmdWord} {e : IllegalReason} (h : decode c = .error e) :
    opcodeTable.filter (fun r => r.matchesWord c) = [] := by
  refine List.filter_eq_nil_iff.2 fun r hr hm => ?_
  obtain ⟨i, hi, _⟩ := (matchesWord_iff_decode hr c).1 hm
  simp [h] at hi

theorem filter_matchesWord_of_ok {c : CmdWord} {i : Instr} (h : decode c = .ok i) :
    ∃ r, opcodeTable.filter (fun r => r.matchesWord c) = [r] ∧ r.mnemonic = i.mnemonic := by
  have hrows : opcodeTable.filter (fun r => r.matchesWord c) =
      opcodeTable.filter (fun r => r.mnemonic == i.mnemonic) :=
    List.filter_congr fun r hr => by
      rw [Bool.eq_iff_iff, matchesWord_iff_decode hr, h]; simp
  rw [hrows]
  cases i <;> exact ⟨_, rfl, rfl⟩

/-- Settles O11: R77 on the word's number, and the table row by row through the decoder. -/
theorem legalWordsAreTheOpcodeMap : Obligations.LegalWordsAreTheOpcodeMap := fun c =>
  ⟨legal_iff c, fun _ h => ⟨legal_of_decode_ok h, filter_matchesWord_of_ok h⟩,
    fun _ h => ⟨legal_of_decode_error h, filter_matchesWord_of_error h⟩⟩

/-! ### The end of a value in a stream -/

theorem firstEncoding_append {front : List Byte} {last : Byte} (hf : ∀ b ∈ front, cont b = true)
    (hl : cont last = false) (rest : List Byte) :
    firstEncoding (front ++ last :: rest) = some (front ++ [last], rest) := by
  induction front with
  | nil => simp [firstEncoding, hl]
  | cons b front ih =>
    obtain ⟨hb, hfront⟩ := List.forall_mem_cons.1 hf
    simp [firstEncoding, hb, ih hfront]

theorem firstEncoding_of_all_cont {bs : List Byte} (h : ∀ b ∈ bs, cont b = true) :
    firstEncoding bs = none := by
  induction bs with
  | nil => rfl
  | cons b bs ih =>
    obtain ⟨hb, hbs⟩ := List.forall_mem_cons.1 h
    simp [firstEncoding, hb, ih hbs]

/-- A stream has a first terminating byte, or every byte of it continues. -/
theorem all_cont_or_terminated (bs : List Byte) :
    (∀ b ∈ bs, cont b = true) ∨ ∃ front last rest, bs = front ++ last :: rest ∧
      (∀ b ∈ front, cont b = true) ∧ cont last = false := by
  induction bs with
  | nil => exact .inl (by simp)
  | cons b bs ih =>
    cases hb : cont b with
    | false => exact .inr ⟨[], b, bs, rfl, by simp, hb⟩
    | true =>
      rcases ih with hbs | ⟨front, last, rest, rfl, hf, hl⟩
      · exact .inl (List.forall_mem_cons.2 ⟨hb, hbs⟩)
      · exact .inr ⟨b :: front, last, rest, rfl, List.forall_mem_cons.2 ⟨hb, hf⟩, hl⟩

theorem firstEncoding_eq_none_iff (bs : List Byte) :
    firstEncoding bs = none ↔ ∀ b ∈ bs, cont b = true := by
  refine ⟨fun h => ?_, firstEncoding_of_all_cont⟩
  rcases all_cont_or_terminated bs with hbs | ⟨front, last, rest, rfl, hf, hl⟩
  · exact hbs
  · simp [firstEncoding_append hf hl] at h

theorem firstEncoding_eq_some_iff (bs e rest : List Byte) :
    firstEncoding bs = some (e, rest) ↔ e ++ rest = bs ∧ ∃ front last, e = front ++ [last] ∧
      (∀ b ∈ front, cont b = true) ∧ cont last = false := by
  constructor
  · intro h
    rcases all_cont_or_terminated bs with hbs | ⟨front, last, rest', rfl, hf, hl⟩
    · simp [firstEncoding_of_all_cont hbs] at h
    · rw [firstEncoding_append hf hl, Option.some_inj, Prod.mk.injEq] at h
      obtain ⟨rfl, rfl⟩ := h
      exact ⟨by simp, front, last, rfl, hf, hl⟩
  · rintro ⟨rfl, front, last, rfl, hf, hl⟩
    simpa using firstEncoding_append hf hl rest

/-- Of the bytes of a value only the one of group 0 has its flag clear. -/
theorem encBytesDown_succ_eq (v : Word) (n : Nat) : ∃ front,
    encBytesDown v (n + 1) = front ++ [encByte v 0] ∧ ∀ b ∈ front, cont b = true := by
  induction n with
  | zero => exact ⟨[], rfl, by simp⟩
  | succ n ih =>
    obtain ⟨front, hfront, hcont⟩ := ih
    refine ⟨encByte v (n + 1) :: front, by rw [encBytesDown, hfront]; rfl, ?_⟩
    exact List.forall_mem_cons.2 ⟨by simp [cont_encByte], hcont⟩

theorem vlq_eq (v : Word) : ∃ front,
    vlq v = front ++ [encByte v 0] ∧ ∀ b ∈ front, cont b = true := by
  obtain ⟨n, hn⟩ := Nat.exists_eq_add_of_le' (one_le_nbytes v)
  rw [vlq, hn]
  exact encBytesDown_succ_eq v n

/-- Settles O25: a stream is cut at its first terminating byte; VLQ(v) has one, at its end. -/
theorem valueEndsAtFirstClearFlag : Obligations.ValueEndsAtFirstClearFlag := by
  refine ⟨fun bs => ⟨firstEncoding_eq_none_iff bs, firstEncoding_eq_some_iff bs⟩, fun v rest => ?_⟩
  obtain ⟨front, hv, hf⟩ := vlq_eq v
  exact (firstEncoding_eq_some_iff _ _ _).2 ⟨rfl, front, _, hv, hf, by simp [cont_encByte]⟩

/-! ### Lines of assembly -/

theorem assembleLine_of_wellFormed {l : AsmLine} (h : l.wellFormed = true) :
    assembleLine l = .ok (lineWords l) := by
  simp [assembleLine, h]

theorem assembleLine_of_not_wellFormed {l : AsmLine} (h : l.wellFormed = false) :
    assembleLine l = .error .outOfRange := by
  simp [assembleLine, h]

/-- Every word of a line is the word of a command, but for `.word40`. -/
theorem lineWords_encode {l : AsmLine} (h : ∀ w, l ≠ .word40 w) {c : CmdWord}
    (hc : c ∈ lineWords l) : ∃ i, encode i = c := by
  cases l with
  | word40 w => exact absurd rfl (h w)
  | encode vs =>
    obtain ⟨v, _, rfl⟩ := List.mem_map.1 hc
    exact ⟨_, rfl⟩
  | decode bs =>
    rcases List.mem_append.1 hc with hc | hc
    · obtain ⟨b, _, rfl⟩ := List.mem_map.1 hc
      exact ⟨_, rfl⟩
    · exact ⟨_, (List.mem_singleton.1 hc).symm⟩
  | _ => exact ⟨_, (List.mem_singleton.1 hc).symm⟩

/-- Settles O53: a word the assembler writes for a mnemonic is a command's, and those are legal. -/
theorem mnemonicsWriteOnlyLegalWords : Obligations.MnemonicsWriteOnlyLegalWords := by
  refine ⟨fun l h => assembleLine_of_not_wellFormed h, fun l h hl => ?_, fun w hw => ?_⟩
  · refine ⟨_, assembleLine_of_wellFormed h, fun c hc => ?_⟩
    obtain ⟨i, rfl⟩ := lineWords_encode hl hc
    exact legal_encode i
  · exact ⟨_, assembleLine_of_wellFormed (by simpa [AsmLine.wellFormed, Config.cmdWidth] using hw),
      by simpa using hw⟩

/-- A text of lines gives the words of all its lines, or, with one out of range, none. -/
theorem assembleLines_eq (ls : List AsmLine) :
    assembleLines ls =
      if ls.all AsmLine.wellFormed then .ok (ls.flatMap lineWords) else .error .outOfRange := by
  induction ls with
  | nil => rfl
  | cons l ls ih =>
    cases hl : l.wellFormed with
    | false => simp [assembleLines, assembleLine_of_not_wellFormed hl, hl]
    | true =>
      rw [assembleLines, assembleLine_of_wellFormed hl, ih]
      cases hls : ls.all AsmLine.wellFormed <;> simp [hl, hls]

/-- Settles O54: both sides have one range check and one list of words. -/
theorem pseudoInstructionsExpand : Obligations.PseudoInstructionsExpand := by
  refine ⟨fun vs => ?_, fun bs => ?_⟩
  · have hwf : (vs.map AsmLine.enc).all AsmLine.wellFormed = vs.all inInteger := by
      rw [List.all_map]; rfl
    have hwords : (vs.map AsmLine.enc).flatMap lineWords = lineWords (.encode vs) := by
      rw [List.flatMap_map]; exact List.map_eq_flatMap.symm
    rw [assembleLines_eq, hwf, hwords]; rfl
  · have hwf : (bs.map AsmLine.dec ++ [AsmLine.dend]).all AsmLine.wellFormed = bs.all inByte := by
      rw [List.all_append, List.all_map]; exact Bool.and_true _
    have hwords :
        (bs.map AsmLine.dec ++ [AsmLine.dend]).flatMap lineWords = lineWords (.decode bs) := by
      rw [List.flatMap_append, List.flatMap_map, lineWords, List.map_eq_flatMap]; rfl
    rw [assembleLines_eq, hwf, hwords]; rfl

/-- Settles O55: the line is in range, its word decodes back, and no operand is cut. -/
theorem assembledMnemonicDecodesToItsCommand :
    Obligations.AssembledMnemonicDecodesToItsCommand := by
  refine ⟨fun v hv => ?_, fun b hb => ?_, ⟨_, rfl, decode_encode .dend⟩, fun v k hv hk => ?_,
    fun b hb => ?_⟩
  · have hwf : (AsmLine.enc v).wellFormed = true := decide_eq_true hv
    exact ⟨_, _, assembleLine_of_wellFormed hwf, decode_encode _,
      Nat.mod_eq_of_lt (by omega)⟩
  · have hwf : (AsmLine.dec b).wellFormed = true := decide_eq_true hb
    exact ⟨_, _, assembleLine_of_wellFormed hwf, decode_encode _,
      Nat.mod_eq_of_lt (by omega)⟩
  · have hwf : (AsmLine.grp v k).wellFormed = true :=
      Bool.and_eq_true_iff.2 ⟨decide_eq_true hv, decide_eq_true hk⟩
    exact ⟨_, _, _, assembleLine_of_wellFormed hwf, decode_encode _,
      Nat.mod_eq_of_lt (by omega), Nat.mod_eq_of_lt (by omega)⟩
  · have hwf : (AsmLine.cfd b).wellFormed = true := decide_eq_true hb
    exact ⟨_, _, assembleLine_of_wellFormed hwf, decode_encode _,
      Nat.mod_eq_of_lt (by omega)⟩

/-! ### The text of a line -/

/-- A line is read from its characters before the comment, in lower case, and from nothing else. -/
theorem readLine_congr {cs cs' : List Char}
    (h : (cs.takeWhile (· ≠ ';')).map lowerChar = (cs'.takeWhile (· ≠ ';')).map lowerChar) :
    readLine cs = readLine cs' := by
  rw [readLine, readLine, h]

theorem lowerChar_of_upper {c : Char} (h : 65 ≤ c.toNat ∧ c.toNat ≤ 90) :
    (lowerChar c).toNat = c.toNat + 32 := by
  have hv : (c.toNat + 32).isValidChar := .inl (by omega)
  rw [lowerChar, if_pos h, Char.toNat_ofNat, if_pos hv]

theorem lowerChar_of_not_upper {c : Char} (h : ¬(65 ≤ c.toNat ∧ c.toNat ≤ 90)) :
    lowerChar c = c := if_neg h

theorem lowerChar_lowerChar (c : Char) : lowerChar (lowerChar c) = lowerChar c := by
  by_cases h : 65 ≤ c.toNat ∧ c.toNat ≤ 90
  · apply lowerChar_of_not_upper
    rw [lowerChar_of_upper h]; omega
  · rw [lowerChar_of_not_upper h, lowerChar_of_not_upper h]

theorem lowerChar_eq_semicolon_iff (c : Char) : lowerChar c = ';' ↔ c = ';' := by
  by_cases h : 65 ≤ c.toNat ∧ c.toNat ≤ 90
  · have hl := lowerChar_of_upper h
    have hs : (';').toNat = 59 := rfl
    constructor
    · intro e; rw [e] at hl; omega
    · rintro rfl; omega
  · rw [lowerChar_of_not_upper h]

/-- Settles O56: a comment is cut off first; lowering a letter twice is lowering it once, and
gives no `;`. -/
theorem commentsAndCaseDoNotMatter : Obligations.CommentsAndCaseDoNotMatter := by
  refine ⟨fun line comment h => readLine_congr ?_, fun line => readLine_congr ?_⟩
  · have hline : ∀ c ∈ line, decide (c ≠ ';') = true := fun c hc =>
      decide_eq_true fun e => h (e ▸ hc)
    rw [List.takeWhile_append_of_pos hline, List.takeWhile_eq_self_iff.2 hline]
    simp
  · have hstop : (fun c => decide (c ≠ ';')) ∘ lowerChar = fun c => decide (c ≠ ';') :=
      funext fun c => by simp [lowerChar_eq_semicolon_iff]
    rw [List.takeWhile_map, hstop, List.map_map]
    exact List.map_congr_left fun c _ => lowerChar_lowerChar c

/-! ### Numbers -/

theorem digitValue_digitChar : ∀ d < 16, digitValue (Nat.digitChar d) = some d := by decide

theorem readDigits_digit {base d : Nat} (hb : base ≤ 16) (hd : d < base) (cs : List Char)
    (acc : Nat) :
    readDigits base (d.digitChar :: cs) acc = readDigits base cs (acc * base + d) := by
  simp [readDigits, digitValue_digitChar d (by omega), hd]

/-- The digits of `n` before any others are read as `n`. -/
theorem readDigits_toDigits_append {base : Nat} (h1 : 1 < base) (hb : base ≤ 16) (n : Nat)
    (cs : List Char) : readDigits base (Nat.toDigits base n ++ cs) 0 = readDigits base cs n := by
  induction n using Nat.strongRecOn generalizing cs with
  | ind n ih =>
    by_cases hn : n < base
    · rw [Nat.toDigits_of_lt_base hn, List.singleton_append, readDigits_digit hb hn,
        Nat.zero_mul, Nat.zero_add]
    · have hmod : n % base < base := Nat.mod_lt _ (by omega)
      rw [Nat.toDigits_of_base_le h1 (by omega), List.append_assoc,
        ih _ (Nat.div_lt_self (by omega) h1), List.singleton_append, readDigits_digit hb hmod,
        Nat.div_add_mod']

theorem readDigits_toDigits {base : Nat} (h1 : 1 < base) (hb : base ≤ 16) (n : Nat) :
    readDigits base (Nat.toDigits base n) 0 = some n := by
  simpa [readDigits] using readDigits_toDigits_append h1 hb n []

theorem readNumber_hex {cs : List Char} (h : cs ≠ []) :
    readNumber ('0' :: 'x' :: cs) = readDigits 16 cs 0 := by
  cases cs with
  | nil => exact absurd rfl h
  | cons c cs => rfl

theorem readNumber_decimal {cs : List Char} (h : cs ≠ []) (hx : 'x' ∉ cs) :
    readNumber cs = readDigits 10 cs 0 := by
  unfold readNumber
  split
  · exact absurd rfl h
  · simp at hx
  · simp at hx
  · rfl

theorem x_notMem_toDigits_ten (n : Nat) : 'x' ∉ Nat.toDigits 10 n := fun h =>
  absurd (Nat.isDigit_of_mem_toDigits (by decide) le_rfl h) (by decide)

/-- Settles O57: the digits by strong induction on the number; decimal digits have no `x`. -/
theorem numbersAreReadInBothBases : Obligations.NumbersAreReadInBothBases := fun n =>
  ⟨(readNumber_decimal Nat.toDigits_ne_nil (x_notMem_toDigits_ten n)).trans
      (readDigits_toDigits (by decide) (by decide) n),
    (readNumber_hex Nat.toDigits_ne_nil).trans (readDigits_toDigits (by decide) le_rfl n)⟩

end Sys2Proof.Machine
end

section
/-! PROOFS. 40_group_rule.md: the groups of a value, GRP and CFD, the encoded length, and the bytes
of VLQ(v). -/

namespace Sys2Proof.Machine

/-! ### Groups -/

theorem group_eq_extractLsb' (v : Word) (i : Nat) : group v i = v.extractLsb' (7 * i) 7 := by
  apply BitVec.eq_of_toNat_eq
  rw [group_toNat, BitVec.extractLsb'_toNat, Nat.shiftRight_eq_div_pow]

theorem group_eq_zero_of_lt {v : Word} {i : Nat} (h : v.toNat < 2 ^ (7 * i)) : group v i = 0#7 := by
  apply BitVec.eq_of_toNat_eq
  rw [group_toNat, Nat.div_eq_of_lt h]
  rfl

/-- Bits 28 to 31 are the last ones of a 32-bit value, so group 4 has no others. -/
theorem group_four_toNat (v : Word) : (group v 4).toNat = (v.extractLsb' 28 4).toNat := by
  rw [group_toNat, BitVec.extractLsb'_toNat, Nat.shiftRight_eq_div_pow]
  omega

theorem lt_two_pow_of_five_le (v : Word) {i : Nat} (hi : 5 ≤ i) : v.toNat < 2 ^ (7 * i) :=
  v.isLt.trans_le (Nat.pow_le_pow_right (by norm_num) (by omega))

/-- Settles O17: the shift and the mask are a quotient and a remainder, and v is below 2^32. -/
theorem groupIsSevenBitsOfTheValue : Obligations.GroupIsSevenBitsOfTheValue := by
  refine fun v i => ⟨group_toNat v i, fun _ => group_eq_extractLsb' v i, ?_,
    fun hi => group_eq_zero_of_lt (lt_two_pow_of_five_le v hi)⟩
  rintro rfl
  exact ⟨group_four_toNat v, group_four_toNat v ▸ Nat.le_of_lt_succ (BitVec.isLt _)⟩

/-! ### GRP and CFD -/

theorem exec_grp (v : Word) (k : BitVec 4) (s : State) :
    exec (.grp v k) s = .next (setResult ((group v k.toNat).setWidth 32) s) := rfl

theorem exec_cfd (b : Byte) (s : State) :
    exec (.cfd b) s = .next (setResult ((BitVec.ofBool (cont b)).setWidth 32) s) := rfl

theorem setWidth_group (v : Word) (i : Nat) :
    (group v i).setWidth 32 = BitVec.ofNat 32 (v.toNat / 2 ^ (7 * i) % 128) := by
  rw [← group_toNat, BitVec.ofNat_toNat]

theorem setWidth_cont (b : Byte) :
    (BitVec.ofBool (cont b)).setWidth 32 = if 128 ≤ b.toNat then 1#32 else 0#32 := by
  by_cases h : 128 ≤ b.toNat <;> simp [cont_eq, h]

/-- Settles O18: the group's number, zero-extended; R77 has no other condition at OP = 0x4. -/
theorem grpWritesGroupToResult : Obligations.GrpWritesGroupToResult := by
  refine ⟨fun v k s => ?_, fun c hop => (legal_iff c).2 (by omega)⟩
  rw [exec_grp, setWidth_group, setResult]

theorem runCommand_illegal {c : CmdWord} (h : legal c = false) (s : State) :
    runCommand c s = .next { s with ill := true } := by
  obtain ⟨e, he⟩ := decode_error_of_illegal h
  rw [runCommand_error he, raiseIllegalCommand]

/-- Settles O19: bit 7 of a byte says whether it is 0x80 or more; a non-zero reserved field
fails R77. -/
theorem cfdWritesFlagToResult : Obligations.CfdWritesFlagToResult := by
  refine ⟨fun b s => ?_, fun c s hop hres => runCommand_illegal ?_ s⟩
  · rw [exec_cfd, setWidth_cont, setResult]
  · rw [← Bool.not_eq_true, legal_iff]
    omega

/-! ### The encoded length -/

/-- Each threshold of R97's table is one of these powers. -/
theorem nbytes_le_iff {v : Word} {m : Nat} (hm : 1 ≤ m) :
    nbytes v ≤ m ↔ v.toNat < 2 ^ (7 * m) :=
  ⟨fun h => (lt_pow_nbytes v).trans_le (Nat.pow_le_pow_right (by norm_num) (by omega)),
    nbytes_le hm⟩

theorem bitlen_pos {a : Nat} (h : a ≠ 0) : 1 ≤ bitlen a := by
  simp [bitlen, h]

/-- The source's form of the formula, which has the 1 inside. -/
theorem nbytes_eq_bitlen_max (v : Word) : nbytes v = (bitlen (max v.toNat 1) + 6) / 7 := by
  by_cases h : v.toNat = 0
  · rw [nbytes, h]; decide
  · have hpos := bitlen_pos h
    rw [max_eq_left (by omega), nbytes, ceilDiv]
    omega

/-- Settles O20: the table by comparing v with 2^7, 2^14, 2^21 and 2^28. -/
theorem encodedLengthByRange : Obligations.EncodedLengthByRange := by
  refine fun v => ⟨rfl, nbytes_eq_bitlen_max v, lt_two_pow_bitlen _, fun _ => bitlen_le, ?_⟩
  have h0 := one_le_nbytes v
  have h1 : nbytes v ≤ 1 ↔ v.toNat < 2 ^ 7 := nbytes_le_iff (by norm_num)
  have h2 : nbytes v ≤ 2 ↔ v.toNat < 2 ^ 14 := nbytes_le_iff (by norm_num)
  have h3 : nbytes v ≤ 3 ↔ v.toNat < 2 ^ 21 := nbytes_le_iff (by norm_num)
  have h4 : nbytes v ≤ 4 ↔ v.toNat < 2 ^ 28 := nbytes_le_iff (by norm_num)
  have h5 := nbytes_le_five v
  refine ⟨?_, ?_, ?_, ?_, ?_⟩ <;> omega

theorem group_eq_zero_of_nbytes_le {v : Word} {i : Nat} (h : nbytes v ≤ i) : group v i = 0#7 :=
  group_eq_zero_of_lt ((nbytes_le_iff ((one_le_nbytes v).trans h)).1 h)

/-- A positive value does not fit in fewer groups than NBYTES(v). -/
theorem two_pow_pred_nbytes_le {v : Word} (h : v ≠ 0#32) : 2 ^ (7 * (nbytes v - 1)) ≤ v.toNat := by
  have hpos : v.toNat ≠ 0 := fun e => h (BitVec.eq_of_toNat_eq e)
  by_cases h1 : nbytes v = 1
  · rw [h1]; omega
  · have hn := one_le_nbytes v
    refine not_lt.1 fun hlt => ?_
    have := nbytes_le (by omega) hlt
    omega

/-- Nothing lies above the top group, so it is the whole quotient. -/
theorem top_group_toNat (v : Word) :
    (group v (nbytes v - 1)).toNat = v.toNat / 2 ^ (7 * (nbytes v - 1)) := by
  have hn : 7 * nbytes v = 7 * (nbytes v - 1) + 7 := by have := one_le_nbytes v; omega
  have hlt := lt_pow_nbytes v
  rw [hn, pow_add] at hlt
  exact (group_toNat v _).trans (Nat.mod_eq_of_lt (Nat.div_lt_of_lt_mul hlt))

theorem top_group_ne_zero {v : Word} (h : v ≠ 0#32) : group v (nbytes v - 1) ≠ 0#7 := by
  intro h0
  have hpos := Nat.div_pos (two_pow_pred_nbytes_le h) (Nat.two_pow_pos _)
  rw [← top_group_toNat, h0] at hpos
  exact absurd hpos (by decide)

/-- Settles O21: NBYTES(v) is the least number of groups that holds v. -/
theorem topGroupIsTheMostSignificant : Obligations.TopGroupIsTheMostSignificant := fun v =>
  ⟨one_le_nbytes v, nbytes_le_five v, fun _ => group_eq_zero_of_nbytes_le, top_group_ne_zero⟩

/-! ### The bytes of VLQ(v) -/

theorem encBytesDown_eq_map (v : Word) (n : Nat) :
    encBytesDown v n = (List.range n).reverse.map (encByte v) := by
  induction n with
  | zero => rfl
  | succ n ih => simp [encBytesDown, ih, List.range_succ]

theorem encByte_eq_ofNat (v : Word) (i : Nat) :
    encByte v i = BitVec.ofNat 8 ((if 0 < i then 128 else 0) + v.toNat / 2 ^ (7 * i) % 128) := by
  rw [← encByte_toNat, BitVec.ofNat_toNat, BitVec.setWidth_eq]

theorem cont_encByte_zero (v : Word) : cont (encByte v 0) = false := by
  simp [cont_encByte]

/-- Settles O22: the recursion runs down the group indices, and only index 0 has no flag. -/
theorem encodingIsGroupsMostSignificantFirst :
    Obligations.EncodingIsGroupsMostSignificantFirst := by
  intro v
  obtain ⟨front, hv, hf⟩ := vlq_eq v
  refine ⟨?_, front, _, hv, hf, cont_encByte_zero v⟩
  rw [vlq, encBytesDown_eq_map]
  exact List.map_congr_left fun i _ => encByte_eq_ofNat v i

theorem vlq_zero : vlq 0#32 = [0x00#8] := by decide

/-- The first byte carries the top group. -/
theorem vlq_eq_cons (v : Word) :
    vlq v = encByte v (nbytes v - 1) :: encBytesDown v (nbytes v - 1) := by
  obtain ⟨n, hn⟩ := Nat.exists_eq_add_of_le' (one_le_nbytes v)
  rw [vlq, hn, Nat.add_sub_cancel, encBytesDown]

theorem eq_zero_of_first_payload {v : Word} {b : Byte} {bs : List Byte} (h : vlq v = b :: bs)
    (hp : payload b = 0#7) : v = 0#32 := by
  rw [vlq_eq_cons, List.cons.injEq] at h
  rw [← h.1, payload_encByte] at hp
  exact not_not.1 fun hv => top_group_ne_zero hv hp

/-- R103: the one encoding whose first payload is 0. -/
theorem first_payload_zero {v : Word} {b : Byte} {bs : List Byte} (h : vlq v = b :: bs)
    (hp : payload b = 0#7) : v = 0#32 ∧ b = 0x00#8 ∧ bs = [] := by
  obtain rfl := eq_zero_of_first_payload h hp
  rw [vlq_zero, List.cons.injEq] at h
  exact ⟨rfl, h.1.symm, h.2.symm⟩

/-- Settles O23: the first byte's payload is the top group. -/
theorem encodingIsCanonical : Obligations.EncodingIsCanonical := by
  refine ⟨vlq_zero, fun v hv => ⟨_, _, vlq_eq_cons v, ?_⟩, fun v b bs h => ⟨?_, fun hp => ?_⟩⟩
  · rw [payload_encByte]
    exact top_group_ne_zero hv
  · rintro rfl
    obtain ⟨_, hb, _⟩ := first_payload_zero h (by decide)
    exact absurd hb (by decide)
  · obtain ⟨hv, _, hbs⟩ := first_payload_zero h hp
    exact ⟨hv, hbs⟩

/-! ### Terminating bytes -/

theorem filter_not_cont_of_all_cont {bs : List Byte} (h : ∀ b ∈ bs, cont b = true) :
    bs.filter (fun b => !cont b) = [] :=
  List.filter_eq_nil_iff.2 fun b hb => by simp [h b hb]

theorem filter_not_cont_vlq (v : Word) : (vlq v).filter (fun b => !cont b) = [encByte v 0] := by
  obtain ⟨front, hv, hf⟩ := vlq_eq v
  rw [hv, List.filter_append, filter_not_cont_of_all_cont hf]
  simp [cont_encByte_zero]

theorem filter_not_cont_encodeSeq (vs : List Word) :
    (encodeSeq vs).filter (fun b => !cont b) = vs.map fun v => encByte v 0 := by
  rw [encodeSeq, List.filter_flatMap, List.map_eq_flatMap]
  simp only [filter_not_cont_vlq]

theorem encodeSeq_append (us ws : List Word) :
    encodeSeq (us ++ ws) = encodeSeq us ++ encodeSeq ws :=
  List.flatMap_append

theorem encodeSeq_take_succ {vs : List Word} {j : Nat} (hj : j < vs.length) :
    encodeSeq (vs.take (j + 1)) = encodeSeq (vs.take j) ++ vlq vs[j] := by
  rw [List.take_succ_eq_append_getElem hj, encodeSeq_append]
  simp [encodeSeq]

/-- Settles O24: each value before value j has one terminating byte; value j ends with its own. -/
theorem terminatingBytesDelimitValues : Obligations.TerminatingBytesDelimitValues := by
  refine ⟨fun v => ?_, fun vs j hj => ?_⟩
  · obtain ⟨front, hv, _⟩ := vlq_eq v
    exact ⟨by rw [filter_not_cont_vlq]; rfl, front, _, hv, cont_encByte_zero v⟩
  · obtain ⟨front, hv, hf⟩ := vlq_eq vs[j]
    have hend : encodeSeq (vs.take (j + 1)) =
        (encodeSeq (vs.take j) ++ front) ++ [encByte vs[j] 0] := by
      rw [encodeSeq_take_succ hj, hv, List.append_assoc]
    refine ⟨_, _, encodeSeq (vs.drop (j + 1)), hend, cont_encByte_zero _, ?_, ?_⟩
    · rw [List.filter_append, filter_not_cont_encodeSeq, filter_not_cont_of_all_cont hf,
        List.append_nil, List.length_map, List.length_take, min_eq_left hj.le]
    · rw [List.append_cons, ← hend, ← encodeSeq_append, List.take_append_drop]

end Sys2Proof.Machine
end

section
/-! PROOFS. 41_encode.md: one ENC, and the ENC commands of a sequence. -/

namespace Sys2Proof.Machine

/-! ### One ENC -/

theorem exec_enc (v : Word) (s : State) :
    exec (.enc v) s =
      .next { s with encOut := s.encOut ++ vlq v, encLen := BitVec.ofNat 3 (nbytes v) } := by
  rw [exec, execEnc, emitGroups_eq, setEncLen, vlq]

/-- Three bits hold every length. -/
theorem ofNat_nbytes_toNat (v : Word) : (BitVec.ofNat 3 (nbytes v)).toNat = nbytes v :=
  (BitVec.toNat_ofNat _ _).trans (Nat.mod_eq_of_lt ((nbytes_le_five v).trans_lt (by norm_num)))

/-- Settles O26: the loop appends VLQ(v) whole; a non-zero K fails R77 at OP = 0x1. -/
theorem encAppendsEncoding : Obligations.EncAppendsEncoding := by
  refine ⟨fun v s => ⟨exec_enc v s, ofNat_nbytes_toNat v⟩,
    fun c s hop hk => runCommand_illegal ?_ s⟩
  rw [← Bool.not_eq_true, legal_iff]
  omega

/-! ### A sequence -/

theorem encodeSeq_cons (v : Word) (vs : List Word) : encodeSeq (v :: vs) = vlq v ++ encodeSeq vs :=
  List.flatMap_cons

/-- R120 as the whole next state. The state is general: the rest of a sequence starts from the bytes
and the ENC_LEN its first ENC leaves. -/
theorem runAll_encodeCommands (vs : List Word) (s : State) :
    runAll (encodeCommands vs) s =
      .next { s with
        encOut := s.encOut ++ encodeSeq vs
        encLen := (vs.getLast?.map fun v => BitVec.ofNat 3 (nbytes v)).getD s.encLen } := by
  induction vs generalizing s with
  | nil => simp [encodeCommands, encodeSeq]
  | cons v vs ih =>
    have henc := (runInput_commandOf (.enc v) s).trans (exec_enc v s)
    rw [encodeCommands, List.map_cons, runAll_cons henc, ← encodeCommands, ih,
      encodeSeq_cons, List.append_assoc, List.getLast?_cons, Option.map_some, Option.getD_some,
      Option.getD_map]

/-- Settles O27, by induction on the sequence. -/
theorem encodeSequenceAppendsConcatenation : Obligations.EncodeSequenceAppendsConcatenation :=
  ⟨rfl, encodeSeq_cons, runAll_encodeCommands⟩

theorem vlq_length (v : Word) : (vlq v).length = nbytes v :=
  encBytesDown_length v _

theorem encodeSeq_length (vs : List Word) : (encodeSeq vs).length = (vs.map nbytes).sum := by
  simp only [encodeSeq, List.length_flatMap, vlq_length]

/-- Settles O28: VLQ(v) has one byte per group. -/
theorem encodedLengthLaw : Obligations.EncodedLengthLaw := by
  refine ⟨fun v s => ⟨_, exec_enc v s, ?_, ofNat_nbytes_toNat v⟩, encodeSeq_length⟩
  rw [List.length_append, vlq_length]

/-- Settles O29: the bytes are `encode(vs)`, which names no state. -/
theorem encodeIgnoresState : Obligations.EncodeIgnoresState := fun vs s s' =>
  ⟨_, _, encodeSeq vs, runAll_encodeCommands vs s, runAll_encodeCommands vs s', rfl, rfl⟩

end Sys2Proof.Machine
end

section
/-! PROOFS. 42_decode.md: DEC and DEND, the transaction and `decode_ref`, and what follows from their
agreement. -/

namespace Sys2Proof.Machine

/-! ### DEC in numbers -/

theorem accNext_eq_ofNat (acc : Word) (b : Byte) :
    accNext acc b = BitVec.ofNat 32 (128 * acc.toNat + b.toNat % 128) := by
  apply BitVec.eq_of_toNat_eq
  rw [accNext_toNat, payload_toNat, BitVec.toNat_ofNat]

theorem ovfNext_eq (ovf : Bool) (acc : Word) :
    ovfNext ovf acc = (ovf || decide (2 ^ 25 ≤ acc.toNat)) := by
  rw [ovfNext, carry_ne_zero]

theorem exec_dec_of_decErr {s : State} (he : s.decErr = true) (b : Byte) :
    exec (.dec b) s = .next s := by
  simp [exec, execDec, he]

section
variable {s : State} {b : Byte}

theorem exec_dec_of_cont (he : s.decErr = false) (hc : cont b = true) :
    exec (.dec b) s =
      .next (continueValue (accNext s.decAcc b) (ovfNext s.decOvf s.decAcc) s) := by
  simp [exec, execDec, he, hc]

theorem exec_dec_of_overflow (he : s.decErr = false) (hc : cont b = false)
    (ho : ovfNext s.decOvf s.decAcc = true) :
    exec (.dec b) s = .next (clearValue (failTransaction s)) := by
  simp [exec, execDec, he, hc, ho]

theorem exec_dec_of_complete (he : s.decErr = false) (hc : cont b = false)
    (ho : ovfNext s.decOvf s.decAcc = false) :
    exec (.dec b) s = .next (clearValue (countValue (emitDec (accNext s.decAcc b) s))) := by
  simp [exec, execDec, he, hc, ho]

end

/-- Settles O30: each path of R132 with its shift, mask and carry as numbers. -/
theorem decConsumesOneByte : Obligations.DecConsumesOneByte := by
  refine ⟨fun b s => ⟨fun he => exec_dec_of_decErr he b, fun he hb => ?_, fun he hb ho ha => ?_,
    fun he hb ho => ?_⟩, fun c s hop hres => runCommand_illegal ?_ s⟩
  · rw [exec_dec_of_cont he (by simpa [cont_eq] using hb), accNext_eq_ofNat, ovfNext_eq,
      continueValue]
  · have hnval : s.decNval + 1#32 = BitVec.ofNat 32 (s.decNval.toNat + 1) := by
      apply BitVec.eq_of_toNat_eq
      simp [BitVec.toNat_add]
    rw [exec_dec_of_complete he (by simpa [cont_eq] using hb) (by simpa [ovfNext_eq, ho] using ha),
      accNext_eq_ofNat, Nat.mod_eq_of_lt hb, ← hnval]
    rfl
  · rw [exec_dec_of_overflow he (by simpa [cont_eq] using hb) (by simpa [ovfNext_eq] using ho)]
    rfl
  · rw [← Bool.not_eq_true, legal_iff]
    omega

/-! ### DEND -/

theorem exec_dend (s : State) : exec .dend s = .next (clearContext (reportTransaction s)) := rfl

/-- Settles O31: the report and the clearing, field by field; every bit of [35:0] is reserved. -/
theorem dendReportsAndClears : Obligations.DendReportsAndClears := by
  refine ⟨exec_dend, fun c s hop hres => runCommand_illegal ?_ s⟩
  rw [← Bool.not_eq_true, legal_iff]
  omega

/-- Settles O33: both write every element of the context. -/
theorem dendAndResetLeaveContextClear : Obligations.DendAndResetLeaveContextClear :=
  ⟨contextClear_resetBlock State.reset,
    fun s => ⟨_, exec_dend s, contextClear_clearContext _⟩,
    fun _ _ hin => ⟨_, step_cons hin, contextClear_resetBlock _⟩⟩

/-- Settles O44: DEC and DEND compute what they write from the decoder, and write nothing else. -/
theorem decoderDoesNotTouchEncoder : Obligations.DecoderDoesNotTouchEncoder := by
  rintro i s s' (rfl | ⟨b, rfl⟩) hs
  · exact ⟨_, _, exec_dend s, exec_dend s', hs.execDend (exec_dend s) (exec_dend s'), rfl, rfl, rfl,
      rfl, rfl, rfl⟩
  · obtain ⟨t, ht⟩ := exec_next (.dec b) s
    obtain ⟨t', ht'⟩ := exec_next (.dec b) s'
    obtain ⟨hresult, hlen, hout, _, _⟩ := execDec_frame ht
    obtain ⟨hill, hrd, hin⟩ := exec_frame ht
    exact ⟨t, t', ht, ht', hs.execDec ht ht', hlen, hout, hresult, hill, hrd, hin⟩

/-! ### The commands of a transaction -/

theorem runAll_commandOf {i : Instr} {s t : State} (h : exec i s = .next t) (xs : List HostInput) :
    runAll (commandOf i :: xs) s = runAll xs t :=
  runAll_cons ((runInput_commandOf i s).trans h) xs

theorem decCommands_cons (b : Byte) (bs : List Byte) :
    decCommands (b :: bs) = commandOf (.dec b) :: decCommands bs := rfl

theorem decCommands_append (bs cs : List Byte) :
    decCommands (bs ++ cs) = decCommands bs ++ decCommands cs :=
  List.map_append

theorem decodeTransaction_cons (b : Byte) (bs : List Byte) :
    decodeTransaction (b :: bs) = commandOf (.dec b) :: decodeTransaction bs := rfl

theorem runAll_decodeTransaction_nil (s : State) :
    runAll (decodeTransaction []) s = .next (clearContext (reportTransaction s)) :=
  runAll_commandOf (exec_dend s) []

theorem runAll_decodeTransaction {bs : List Byte} {s u : State}
    (h : runAll (decCommands bs) s = .next u) :
    runAll (decodeTransaction bs) s = .next (clearContext (reportTransaction u)) :=
  (runAll_append h _).trans (runAll_decodeTransaction_nil u)

theorem runAll_decCommands_of_decErr (bs : List Byte) {s : State} (he : s.decErr = true) :
    runAll (decCommands bs) s = .next s := by
  induction bs with
  | nil => rfl
  | cons b bs ih => rw [decCommands_cons, runAll_commandOf (exec_dec_of_decErr he b), ih]

/-! ### The unbounded accumulator -/

/-- The state of a block that is in a value whose unbounded accumulator (R133) is `a`, with `mid` for
DEC_MID. -/
def withValue (a : Nat) (mid : Bool) (s : State) : State :=
  { s with decAcc := BitVec.ofNat 32 a, decOvf := decide (a > Config.maxInteger), decMid := mid }

@[simp] theorem withValue_decAcc (a : Nat) (mid : Bool) (s : State) :
    (withValue a mid s).decAcc = BitVec.ofNat 32 a := rfl

@[simp] theorem withValue_decNval (a : Nat) (mid : Bool) (s : State) :
    (withValue a mid s).decNval = s.decNval := rfl

theorem withValue_zero {s : State} (hmid : s.decMid = false) (hacc : s.decAcc = 0#32)
    (hovf : s.decOvf = false) : withValue 0 false s = s := by
  cases s
  cases hmid; cases hacc; cases hovf
  rfl

theorem ContextClear.withValue_zero {s : State} (hs : ContextClear s) : withValue 0 false s = s := by
  obtain ⟨hacc, hmid, hovf, _, _⟩ := hs
  exact Machine.withValue_zero hmid hacc hovf

theorem accNext_ofNat (a : Nat) (b : Byte) :
    accNext (BitVec.ofNat 32 a) b = BitVec.ofNat 32 (accumulate a b) := by
  apply BitVec.eq_of_toNat_eq
  simp only [accNext_toNat, accumulate, BitVec.toNat_ofNat]
  omega

/-- R133's step: 128·A + PAYLOAD(b) is above 0xFFFFFFFF when A is, or when the shift carries. -/
theorem ovfNext_ofNat (a : Nat) (b : Byte) :
    ovfNext (decide (a > Config.maxInteger)) (BitVec.ofNat 32 a) =
      decide (accumulate a b > Config.maxInteger) := by
  have hb := (payload b).isLt
  rw [ovfNext_eq, ← Bool.decide_or, decide_eq_decide, BitVec.toNat_ofNat, accumulate,
    Config.maxInteger]
  omega

section
variable {s : State} {b : Byte} {a : Nat}

theorem exec_dec_withValue_of_cont (he : s.decErr = false) (hc : cont b = true) (mid : Bool) :
    exec (.dec b) (withValue a mid s) = .next (withValue (accumulate a b) true s) := by
  rw [exec_dec_of_cont (s := withValue a mid s) he hc]
  simp only [withValue, accNext_ofNat, ovfNext_ofNat a b, continueValue]

theorem exec_dec_withValue_of_overflow (he : s.decErr = false) (hc : cont b = false)
    (ha : accumulate a b > Config.maxInteger) (mid : Bool) :
    exec (.dec b) (withValue a mid s) = .next (withValue 0 false (failTransaction s)) :=
  exec_dec_of_overflow (s := withValue a mid s) he hc
    ((ovfNext_ofNat a b).trans (decide_eq_true ha))

theorem exec_dec_withValue_of_complete (he : s.decErr = false) (hc : cont b = false)
    (ha : accumulate a b ≤ Config.maxInteger) (mid : Bool) :
    exec (.dec b) (withValue a mid s) =
      .next (withValue 0 false
        (countValue (emitDec (BitVec.ofNat 32 (accumulate a b)) s))) := by
  have ho := (ovfNext_ofNat a b).trans (decide_eq_false ha.not_gt)
  rw [exec_dec_of_complete (s := withValue a mid s) he hc ho, ← accNext_ofNat]
  rfl

end

/-- Continuing bytes only move the accumulator, and put the block in a value. -/
theorem runAll_decCommands_of_all_cont {bs : List Byte} (hbs : ∀ b ∈ bs, cont b = true) {s : State}
    (he : s.decErr = false) (a : Nat) (mid : Bool) :
    runAll (decCommands bs) (withValue a mid s) =
      .next (withValue (bs.foldl accumulate a) (mid || !bs.isEmpty) s) := by
  induction bs generalizing a mid with
  | nil => simp [decCommands]
  | cons b bs ih =>
    obtain ⟨hb, hbs⟩ := List.forall_mem_cons.1 hbs
    rw [decCommands_cons, runAll_commandOf (exec_dec_withValue_of_cont he hb mid), ih hbs]
    simp

section
variable {s : State} (hs : withValue 0 false s = s) {bs : List Byte}
  (hbs : ∀ b ∈ bs, cont b = true) (he : s.decErr = false)
include hs hbs he

theorem runAll_decCommands_of_value_start :
    runAll (decCommands bs) s = .next (withValue (bs.foldl accumulate 0) (!bs.isEmpty) s) := by
  have hrun := runAll_decCommands_of_all_cont hbs he 0 false
  rwa [hs, Bool.false_or] at hrun

theorem runAll_decCommands_append_of_value_start (b : Byte) :
    runAll (decCommands (bs ++ [b])) s =
      exec (.dec b) (withValue (bs.foldl accumulate 0) (!bs.isEmpty) s) := by
  obtain ⟨t, ht⟩ := exec_next (.dec b) (withValue (bs.foldl accumulate 0) (!bs.isEmpty) s)
  rw [decCommands_append, runAll_append (runAll_decCommands_of_value_start hs hbs he), ht]
  exact runAll_commandOf ht []

end

theorem runAll_decCommands_of_clear {bs : List Byte} (hbs : ∀ b ∈ bs, cont b = true) {s : State}
    (hs : ContextClear s) :
    runAll (decCommands bs) s = .next (withValue (bs.foldl accumulate 0) (!bs.isEmpty) s) := by
  have ⟨_, _, _, herr, _⟩ := hs
  exact runAll_decCommands_of_value_start hs.withValue_zero hbs herr

/-- Settles O34: `withValue` holds A, and each byte takes it to the next A. -/
theorem overflowTrackingIsExact : Obligations.OverflowTrackingIsExact := by
  intro bs s hbs he hmid hacc hovf
  have hs := withValue_zero hmid hacc hovf
  refine ⟨fun hne => ⟨withValue (bs.foldl accumulate 0) true s, ?_, decide_eq_true_iff,
    BitVec.toNat_ofNat _ _, rfl⟩, fun b hb => ?_⟩
  · have hbs' : bs.isEmpty = false := by simpa using hne
    rw [runAll_decCommands_of_value_start hs hbs he, hbs', Bool.not_false]
  rw [runAll_decCommands_append_of_value_start hs hbs he b]
  refine ⟨fun ha => ⟨BitVec.ofNat 32 (accumulate (bs.foldl accumulate 0) b), ?_, ?_⟩, fun ha => ?_⟩
  · exact (BitVec.toNat_ofNat _ _).trans (Nat.mod_eq_of_lt (by omega))
  · rw [exec_dec_withValue_of_complete he hb ha]
    exact congrArg _ (withValue_zero hmid hacc hovf)
  · rw [exec_dec_withValue_of_overflow he hb ha]
    exact congrArg _ (withValue_zero hmid hacc hovf)

/-! ### `decode_ref`, byte by byte -/

section
variable {b : Byte} {a : Nat} (bs : List Byte) (mid : Bool) (out : List Nat)

theorem decodeRefLoop_cons_of_cont (hc : cont b = true) :
    decodeRefLoop (b :: bs) a mid out = decodeRefLoop bs (accumulate a b) true out := by
  simp [decodeRefLoop, hc]

theorem decodeRefLoop_cons_of_overflow (hc : cont b = false)
    (ha : accumulate a b > Config.maxInteger) :
    decodeRefLoop (b :: bs) a mid out = .error .overflow := by
  rw [decodeRefLoop, hc, if_neg Bool.false_ne_true, if_pos ha]

theorem decodeRefLoop_cons_of_complete (hc : cont b = false)
    (ha : accumulate a b ≤ Config.maxInteger) :
    decodeRefLoop (b :: bs) a mid out = decodeRefLoop bs 0 false (out ++ [accumulate a b]) := by
  rw [decodeRefLoop, hc, if_neg Bool.false_ne_true, if_neg ha.not_gt]

end

/-- The words a transaction emits for the bytes `bs` from accumulator `a` on: one for each value
completed before the first overflow (R142). -/
def emittedWords : Nat → List Byte → List Word
  | _, [] => []
  | a, b :: bs =>
    if cont b then emittedWords (accumulate a b) bs
    else if accumulate a b > Config.maxInteger then []
    else BitVec.ofNat 32 (accumulate a b) :: emittedWords 0 bs

section
variable {b : Byte} {a : Nat} (bs : List Byte)

theorem emittedWords_cons_of_cont (hc : cont b = true) :
    emittedWords a (b :: bs) = emittedWords (accumulate a b) bs := by
  simp [emittedWords, hc]

theorem emittedWords_cons_of_overflow (hc : cont b = false)
    (ha : accumulate a b > Config.maxInteger) : emittedWords a (b :: bs) = [] := by
  rw [emittedWords, hc, if_neg Bool.false_ne_true, if_pos ha]

theorem emittedWords_cons_of_complete (hc : cont b = false)
    (ha : accumulate a b ≤ Config.maxInteger) :
    emittedWords a (b :: bs) = BitVec.ofNat 32 (accumulate a b) :: emittedWords 0 bs := by
  rw [emittedWords, hc, if_neg Bool.false_ne_true, if_neg ha.not_gt]

end

/-- The three paths of a byte in a value: it continues the value, overflows it or completes it. -/
theorem byte_cases (a : Nat) (b : Byte) :
    cont b = true ∨ (cont b = false ∧ accumulate a b > Config.maxInteger) ∨
      (cont b = false ∧ accumulate a b ≤ Config.maxInteger) := by
  cases cont b with
  | true => exact .inl rfl
  | false => exact .inr ((lt_or_ge _ _).imp (⟨rfl, ·⟩) (⟨rfl, ·⟩))

theorem emittedWords_length_le (a : Nat) (bs : List Byte) :
    (emittedWords a bs).length ≤ bs.length := by
  induction bs generalizing a with
  | nil => exact le_rfl
  | cons b bs ih =>
    rcases byte_cases a b with hc | ⟨hc, ha⟩ | ⟨hc, ha⟩
    · rw [emittedWords_cons_of_cont bs hc]
      exact (ih _).trans (Nat.le_succ _)
    · rw [emittedWords_cons_of_overflow bs hc ha]
      exact Nat.zero_le _
    · rw [emittedWords_cons_of_complete bs hc ha]
      exact Nat.succ_le_succ (ih 0)

/-- When `decode_ref` succeeds its output is the words emitted. -/
theorem eq_emittedWords_of_decodeRefLoop_ok {bs : List Byte} {a : Nat} {mid : Bool}
    {out ns : List Nat} (h : decodeRefLoop bs a mid out = .ok ns) :
    ns = out ++ (emittedWords a bs).map BitVec.toNat := by
  induction bs generalizing a mid out with
  | nil =>
    cases mid with
    | true => cases h
    | false => cases h; simp [emittedWords]
  | cons b bs ih =>
    rcases byte_cases a b with hc | ⟨hc, ha⟩ | ⟨hc, ha⟩
    · rw [decodeRefLoop_cons_of_cont bs mid out hc] at h
      rw [ih h, emittedWords_cons_of_cont bs hc]
    · rw [decodeRefLoop_cons_of_overflow bs mid out hc ha] at h
      cases h
    · rw [decodeRefLoop_cons_of_complete bs mid out hc ha] at h
      have hlt : accumulate a b < 2 ^ 32 := Nat.lt_succ_of_le ha
      rw [ih h, emittedWords_cons_of_complete bs hc ha, List.append_assoc, List.map_cons,
        BitVec.toNat_ofNat, Nat.mod_eq_of_lt hlt, List.singleton_append]

theorem decodeRef_eq_ok {bs : List Byte} {ns : List Nat} (h : decodeRef bs = .ok ns) :
    ns = (emittedWords 0 bs).map BitVec.toNat :=
  (eq_emittedWords_of_decodeRefLoop_ok h).trans (List.nil_append _)

/-! ### A transaction as one step -/

/-- The code with which DEND reports a result of `decode_ref` (R137). -/
def codeOf : Except DecodeError (List Nat) → DendCode
  | .ok _ => .ok
  | .error .incompleteSequence => .incomplete
  | .error .overflow => .overflow

/-- The state after DEND has reported `code` and `n` words, and `ws` have been emitted. -/
def reported (code : DendCode) (n : Word) (ws : List Word) (s : State) : State :=
  clearContext { s with dendCode := code, dendNval := n, decOut := s.decOut ++ ws }

section
variable (code : DendCode) (n : Word) (ws : List Word) (s : State)

theorem reported_withValue (a : Nat) (mid : Bool) :
    reported code n ws (withValue a mid s) = reported code n ws s := rfl

theorem reported_failTransaction :
    reported code n ws (failTransaction s) = reported code n ws s := rfl

theorem reported_countValue_emitDec (w : Word) :
    reported code n ws (countValue (emitDec w s)) = reported code n (w :: ws) s := by
  simp [reported, countValue, emitDec, clearContext, clearValue]

theorem clearContext_reportTransaction :
    clearContext (reportTransaction s) = reported (dendResult s) s.decNval [] s := by
  simp [reported, reportTransaction]

end

theorem runAll_decodeTransaction_of_decErr (bs : List Byte) {s : State} (he : s.decErr = true) :
    runAll (decodeTransaction bs) s = .next (reported .overflow s.decNval [] s) := by
  rw [runAll_decodeTransaction (runAll_decCommands_of_decErr bs he),
    clearContext_reportTransaction, dendResult, if_pos he]

/-- The simulation of `decode_ref` by DEC and DEND, in the middle of a value: the code is the one of
the loop's result, and the words are counted on top of those of the transaction so far. -/
theorem runAll_decodeTransaction_withValue (bs : List Byte) (a : Nat) (mid : Bool) (out : List Nat)
    {s : State} (he : s.decErr = false) :
    runAll (decodeTransaction bs) (withValue a mid s) =
      .next (reported (codeOf (decodeRefLoop bs a mid out))
        (s.decNval + BitVec.ofNat 32 (emittedWords a bs).length) (emittedWords a bs) s) := by
  induction bs generalizing a mid out s with
  | nil =>
    have hcode : dendResult (withValue a mid s) = codeOf (decodeRefLoop [] a mid out) := by
      cases mid <;> simp [dendResult, withValue, he, decodeRefLoop, codeOf]
    rw [runAll_decodeTransaction_nil, clearContext_reportTransaction, reported_withValue, hcode]
    simp [emittedWords]
  | cons b bs ih =>
    rw [decodeTransaction_cons]
    rcases byte_cases a b with hc | ⟨hc, ha⟩ | ⟨hc, ha⟩
    · rw [runAll_commandOf (exec_dec_withValue_of_cont he hc mid), ih _ _ out he,
        decodeRefLoop_cons_of_cont bs mid out hc, emittedWords_cons_of_cont bs hc]
    · rw [runAll_commandOf (exec_dec_withValue_of_overflow he hc ha mid),
        runAll_decodeTransaction_of_decErr bs rfl, reported_withValue, reported_failTransaction,
        decodeRefLoop_cons_of_overflow bs mid out hc ha, emittedWords_cons_of_overflow bs hc ha]
      simp [codeOf, withValue, failTransaction]
    · have hrun := ih 0 false (out ++ [accumulate a b])
        (s := countValue (emitDec (BitVec.ofNat 32 (accumulate a b)) s)) he
      rw [runAll_commandOf (exec_dec_withValue_of_complete he hc ha mid), hrun,
        reported_countValue_emitDec, decodeRefLoop_cons_of_complete bs mid out hc ha,
        emittedWords_cons_of_complete bs hc ha, List.length_cons, BitVec.ofNat_add,
        BitVec.add_comm (BitVec.ofNat 32 _) (BitVec.ofNat 32 1), ← BitVec.add_assoc]
      rfl

/-- The whole state after a transaction on `bs` from the clear context of `s`. -/
def afterTransaction (bs : List Byte) (s : State) : State :=
  reported (codeOf (decodeRef bs)) (BitVec.ofNat 32 (emittedWords 0 bs).length)
    (emittedWords 0 bs) s

@[simp] theorem afterTransaction_dendCode (bs : List Byte) (s : State) :
    (afterTransaction bs s).dendCode = codeOf (decodeRef bs) := rfl

@[simp] theorem afterTransaction_dendNval (bs : List Byte) (s : State) :
    (afterTransaction bs s).dendNval = BitVec.ofNat 32 (emittedWords 0 bs).length := rfl

@[simp] theorem afterTransaction_decOut (bs : List Byte) (s : State) :
    (afterTransaction bs s).decOut = s.decOut ++ emittedWords 0 bs := rfl

theorem runAll_transaction (bs : List Byte) {s : State} (hs : ContextClear s) :
    runAll (decodeTransaction bs) s = .next (afterTransaction bs s) := by
  have ⟨_, _, _, herr, hnval⟩ := hs
  have hrun := runAll_decodeTransaction_withValue bs 0 false [] herr
  rwa [hs.withValue_zero, hnval, BitVec.zero_add] at hrun

theorem wordsBetween_afterTransaction (bs : List Byte) (s : State) :
    wordsBetween s (afterTransaction bs s) = emittedWords 0 bs := by
  rw [wordsBetween, afterTransaction_decOut, List.drop_left]

theorem map_ofNat_map_toNat (ws : List Word) :
    (ws.map BitVec.toNat).map (BitVec.ofNat 32) = ws := by
  rw [List.map_map]
  exact List.map_id'' (fun w => BitVec.ofNat_toNat 32 w) ws

/-- R137's result of the machine, from `decode_ref`'s. -/
theorem transactionResult_afterTransaction (bs : List Byte) (s : State) :
    transactionResult s (afterTransaction bs s) =
      some ((decodeRef bs).map fun ns => ns.map (BitVec.ofNat 32)) := by
  rw [transactionResult, wordsBetween_afterTransaction, afterTransaction_dendCode]
  cases h : decodeRef bs with
  | ok ns => simp only [codeOf, Except.map, decodeRef_eq_ok h, map_ofNat_map_toNat]
  | error e => cases e <;> rfl

/-- The words are 32-bit values, so reading them as numbers gives `decode_ref`'s result back. -/
theorem decodeRef_map_words (bs : List Byte) :
    ((decodeRef bs).map fun ns => ns.map (BitVec.ofNat 32)).map
      (fun ws => ws.map BitVec.toNat) = decodeRef bs := by
  cases h : decodeRef bs with
  | ok ns => simp only [Except.map, decodeRef_eq_ok h, map_ofNat_map_toNat]
  | error e => rfl

/-- Settles O35: the simulation from a clear context, and the words read as numbers. -/
theorem transactionComputesDecodeRef : Obligations.TransactionComputesDecodeRef := by
  intro bs s hs
  refine ⟨_, runAll_transaction bs hs, ?_, contextClear_clearContext _, rfl, rfl, rfl, rfl, rfl,
    rfl⟩
  rw [transactionResult_afterTransaction, Option.map_some, decodeRef_map_words]

/-- Settles O43: the words and the report are functions of the bytes. -/
theorem transactionIsRepeatable : Obligations.TransactionIsRepeatable := fun bs _ _ hs hs' =>
  ⟨_, _, emittedWords 0 bs, runAll_transaction bs hs, runAll_transaction bs hs', rfl, rfl, rfl, rfl⟩

/-! ### The host's count of the words -/

theorem afterTransaction_dendNval_toNat {bs : List Byte} (hlen : bs.length < 2 ^ 32) (s : State) :
    (afterTransaction bs s).dendNval.toNat = (emittedWords 0 bs).length := by
  have := emittedWords_length_le 0 bs
  rw [afterTransaction_dendNval, BitVec.toNat_ofNat, Nat.mod_eq_of_lt (by omega)]

theorem keptAfterDend_of_ok {s : State} (h : s.dendCode = .ok) : keptAfterDend s = s.decOut := by
  simp [keptAfterDend, h]

/-- Of a failed transaction the host holds none of the words (R64). -/
theorem keptAfterDend_of_failed {bs : List Byte} (hlen : bs.length < 2 ^ 32) (s : State)
    (h : (afterTransaction bs s).dendCode ≠ .ok) :
    keptAfterDend (afterTransaction bs s) = s.decOut := by
  have hdrop : (afterTransaction bs s).decOut.take ((afterTransaction bs s).decOut.length -
      (afterTransaction bs s).dendNval.toNat) = s.decOut := by
    rw [afterTransaction_dendNval_toNat hlen, afterTransaction_decOut, List.length_append,
      Nat.add_sub_cancel, List.take_left]
  rw [keptAfterDend, hdrop]
  rw [afterTransaction_dendCode] at h ⊢
  cases hr : decodeRef bs with
  | ok ns => simp [hr, codeOf] at h
  | error e => cases e <;> rfl

/-- Settles O36: at most one word a byte, so the counter does not wrap below 2^32 bytes. -/
theorem dendNvalCountsTransactionWords : Obligations.DendNvalCountsTransactionWords := by
  intro bs s hs
  exact ⟨_, emittedWords 0 bs, runAll_transaction bs hs, rfl, wordsBetween_afterTransaction bs s,
    rfl, fun hlen => ⟨afterTransaction_dendNval_toNat hlen s, keptAfterDend_of_ok,
      keptAfterDend_of_failed hlen s⟩⟩

/-! ### Empty, unterminated and overflowed transactions -/

/-- Settles O32: `decode_ref` of no bytes; the first of two DENDs leaves the context clear. -/
theorem emptyTransactionIsOk : Obligations.EmptyTransactionIsOk := by
  refine ⟨fun s hs => ⟨_, runAll_transaction [] hs, rfl, rfl,
    transactionResult_afterTransaction [] s⟩, fun s => ?_⟩
  have hclear := contextClear_clearContext (reportTransaction s)
  exact ⟨_, (runAll_commandOf (exec_dend s) _).trans (runAll_transaction [] hclear), rfl, rfl⟩

/-- After the bytes `xs` the loop has failed for good, or goes on from some point of its own. -/
theorem decodeRefLoop_append_cases (xs : List Byte) (a : Nat) (mid : Bool) (out : List Nat) :
    (∀ ys, decodeRefLoop (xs ++ ys) a mid out = .error .overflow) ∨
    ∃ a' mid' out', ∀ ys, decodeRefLoop (xs ++ ys) a mid out = decodeRefLoop ys a' mid' out' := by
  induction xs generalizing a mid out with
  | nil => exact .inr ⟨a, mid, out, fun _ => rfl⟩
  | cons b xs ih =>
    simp only [List.cons_append]
    rcases byte_cases a b with hc | ⟨hc, ha⟩ | ⟨hc, ha⟩
    · simpa only [decodeRefLoop_cons_of_cont _ mid out hc] using ih _ true out
    · exact .inl fun ys => decodeRefLoop_cons_of_overflow _ mid out hc ha
    · simpa only [decodeRefLoop_cons_of_complete _ mid out hc ha] using ih 0 false _

theorem decodeRefLoop_nil_ne_overflow (a : Nat) (mid : Bool) (out : List Nat) :
    decodeRefLoop [] a mid out ≠ .error .overflow := by
  cases mid <;> simp [decodeRefLoop]

/-- R139: a last byte that continues its value leaves the stream incomplete; R141 is the
exception. -/
theorem decodeRef_append_cont (bs : List Byte) {b : Byte} (hc : cont b = true) :
    (decodeRef bs ≠ .error .overflow → decodeRef (bs ++ [b]) = .error .incompleteSequence) ∧
    (decodeRef bs = .error .overflow → decodeRef (bs ++ [b]) = .error .overflow) := by
  simp only [decodeRef]
  rcases decodeRefLoop_append_cases bs 0 false [] with h | ⟨a, mid, out, h⟩
  · have hbs := h []
    rw [List.append_nil] at hbs
    exact ⟨(absurd hbs ·), fun _ => h [b]⟩
  · have hbs := h []
    rw [List.append_nil] at hbs
    rw [hbs, h [b], decodeRefLoop_cons_of_cont [] mid out hc]
    exact ⟨fun _ => rfl, fun ho => absurd ho (decodeRefLoop_nil_ne_overflow a mid out)⟩

/-- A transaction on which `decode_ref` fails has its error as result. -/
theorem transactionResult_of_error {bs : List Byte} {e : DecodeError}
    (h : decodeRef bs = .error e) (s : State) :
    transactionResult s (afterTransaction bs s) = some (.error e) := by
  rw [transactionResult_afterTransaction, h]
  rfl

theorem transactionResult_of_ok {bs : List Byte} {vs : List Word}
    (h : decodeRef bs = .ok (vs.map BitVec.toNat)) (s : State) :
    transactionResult s (afterTransaction bs s) = some (.ok vs) := by
  rw [transactionResult_afterTransaction, h, Except.map, map_ofNat_map_toNat]

/-- Settles O38, through `decode_ref`. -/
theorem unterminatedStreamIsIncomplete : Obligations.UnterminatedStreamIsIncomplete := by
  refine ⟨fun bs b s hs hc => ⟨_, runAll_transaction _ hs, fun h => ?_, fun h => ?_⟩,
    fun s hs => ⟨_, _, runAll_decCommands_of_clear (by decide) hs, rfl, rfl,
      runAll_transaction _ hs, ?_⟩⟩
  · exact transactionResult_of_error ((decodeRef_append_cont bs hc).1 h) s
  · exact transactionResult_of_error ((decodeRef_append_cont bs hc).2 h) s
  · exact transactionResult_of_error (by decide) s

/-- Settles O40: the failed DEC changes nothing, so DEND finds DEC_ERR as it was. -/
theorem bytesAfterOverflowAreIgnored : Obligations.BytesAfterOverflowAreIgnored := by
  refine ⟨fun bs s he => ⟨runAll_decCommands_of_decErr bs he, _,
    runAll_decodeTransaction_of_decErr bs he, rfl, List.append_nil _, rfl⟩, fun s hs => ?_⟩
  exact ⟨_, runAll_transaction _ hs, transactionResult_of_error (by decide) s, List.append_nil _⟩

/-- Settles O41: `decode_ref` and the words emitted, evaluated on the three sequences. -/
theorem overflowCasesFailTheTransaction : Obligations.OverflowCasesFailTheTransaction := by
  intro s hs
  refine ⟨_, _, _, runAll_transaction _ hs, transactionResult_of_error (by decide) s, by decide,
    runAll_transaction _ hs, transactionResult_of_error (by decide) s, by decide,
    runAll_transaction _ hs, transactionResult_of_error (by decide) s, rfl, ?_⟩
  refine keptAfterDend_of_failed (by decide) s ?_
  rw [afterTransaction_dendCode]
  decide

/-! ### Leading zero groups -/

theorem decodeRefLoop_replicate_0x80 (n : Nat) {bs : List Byte} (hbs : bs ≠ []) (mid : Bool)
    (out : List Nat) :
    decodeRefLoop (List.replicate n 0x80#8 ++ bs) 0 mid out = decodeRefLoop bs 0 mid out := by
  induction n generalizing mid with
  | zero => rfl
  | succ n ih =>
    have hacc : accumulate 0 0x80#8 = 0 := by decide
    rw [List.replicate_succ, List.cons_append, decodeRefLoop_cons_of_cont _ mid out (by decide),
      hacc, ih]
    cases bs with
    | nil => exact absurd rfl hbs
    | cons b bs => rfl

/-- R140 wherever a value starts: where nothing is accumulated, or after a terminating byte. -/
theorem decodeRefLoop_insert_0x80 (n : Nat) {bs : List Byte} (hbs : bs ≠ []) (front : List Byte)
    {a : Nat} (ha : front = [] → a = 0) (hf : ∀ b, front.getLast? = some b → cont b = false)
    (mid : Bool) (out : List Nat) :
    decodeRefLoop (front ++ (List.replicate n 0x80#8 ++ bs)) a mid out =
      decodeRefLoop (front ++ bs) a mid out := by
  induction front generalizing a mid out with
  | nil =>
    obtain rfl := ha rfl
    exact decodeRefLoop_replicate_0x80 n hbs mid out
  | cons b front ih =>
    have hfront : ∀ x, front.getLast? = some x → cont x = false := fun x hx =>
      hf x (by simp [List.getLast?_cons, hx])
    simp only [List.cons_append]
    rcases byte_cases a b with hc | ⟨hc, ho⟩ | ⟨hc, ho⟩
    · have hne : front ≠ [] := by
        rintro rfl
        simp [hf b rfl] at hc
      simp only [decodeRefLoop_cons_of_cont _ mid out hc]
      exact ih (fun h => absurd h hne) hfront true out
    · simp only [decodeRefLoop_cons_of_overflow _ mid out hc ho]
    · simp only [decodeRefLoop_cons_of_complete _ mid out hc ho]
      exact ih (fun _ => rfl) hfront false _

/-- Settles O39: the two transactions have the same `decode_ref`. -/
theorem leadingZeroGroupsAddNothing : Obligations.LeadingZeroGroupsAddNothing := by
  refine ⟨fun front bs n s hs hf hbs =>
    ⟨_, _, runAll_transaction _ hs, runAll_transaction _ hs, ?_⟩, by decide, by decide, by decide⟩
  rw [transactionResult_afterTransaction, transactionResult_afterTransaction, decodeRef, decodeRef,
    List.append_assoc, decodeRefLoop_insert_0x80 n hbs front (fun _ => rfl) hf]

/-! ### Decoding VLQ(v) -/

/-- The groups from `n` down, on top of those above them. -/
theorem foldl_accumulate_encBytesDown (v : Word) (n : Nat) :
    (encBytesDown v n).foldl accumulate (v.toNat / 2 ^ (7 * n)) = v.toNat := by
  induction n with
  | zero => simp [encBytesDown]
  | succ n ih =>
    have hstep : accumulate (v.toNat / 2 ^ (7 * (n + 1))) (encByte v n) =
        v.toNat / 2 ^ (7 * n) := by
      rw [accumulate, payload_encByte, group_toNat, mul_add, pow_add, ← Nat.div_div_eq_div_mul]
      exact Nat.div_add_mod _ 128
    rw [encBytesDown, List.foldl_cons, hstep, ih]

theorem foldl_accumulate_vlq (v : Word) : (vlq v).foldl accumulate 0 = v.toNat := by
  have h := foldl_accumulate_encBytesDown v (nbytes v)
  rwa [Nat.div_eq_of_lt (lt_pow_nbytes v)] at h

theorem le_foldl_accumulate (bs : List Byte) (a : Nat) : a ≤ bs.foldl accumulate a := by
  induction bs generalizing a with
  | nil => exact le_rfl
  | cons b bs ih =>
    have hb : a ≤ accumulate a b := by simp only [accumulate]; omega
    exact hb.trans (ih _)

theorem toNat_le_maxInteger (v : Word) : v.toNat ≤ Config.maxInteger :=
  Nat.le_of_lt_succ v.isLt

/-- The last byte of VLQ(v) completes a value, and the value is v. -/
theorem vlq_eq_append_last (v : Word) : ∃ front last, vlq v = front ++ [last] ∧
    (∀ b ∈ front, cont b = true) ∧ cont last = false ∧
      accumulate (front.foldl accumulate 0) last = v.toNat := by
  obtain ⟨front, hv, hf⟩ := vlq_eq v
  refine ⟨front, _, hv, hf, cont_encByte_zero v, ?_⟩
  rw [← foldl_accumulate_vlq v, hv, List.foldl_append, List.foldl_cons, List.foldl_nil]

theorem decodeRefLoop_append_of_all_cont {front : List Byte} (hf : ∀ b ∈ front, cont b = true)
    (bs : List Byte) (a : Nat) (mid : Bool) (out : List Nat) :
    ∃ mid', decodeRefLoop (front ++ bs) a mid out =
      decodeRefLoop bs (front.foldl accumulate a) mid' out := by
  induction front generalizing a mid with
  | nil => exact ⟨mid, rfl⟩
  | cons b front ih =>
    obtain ⟨hb, hfront⟩ := List.forall_mem_cons.1 hf
    rw [List.cons_append, decodeRefLoop_cons_of_cont _ mid out hb]
    exact ih hfront _ true

theorem decodeRefLoop_vlq_append (v : Word) (bs : List Byte) (out : List Nat) :
    decodeRefLoop (vlq v ++ bs) 0 false out = decodeRefLoop bs 0 false (out ++ [v.toNat]) := by
  obtain ⟨front, last, hv, hf, hl, hacc⟩ := vlq_eq_append_last v
  obtain ⟨mid, hloop⟩ := decodeRefLoop_append_of_all_cont hf (last :: bs) 0 false out
  have hle := hacc ▸ toNat_le_maxInteger v
  rw [hv, List.append_assoc, List.singleton_append, hloop,
    decodeRefLoop_cons_of_complete bs mid out hl hle, hacc]

theorem decodeRefLoop_encodeSeq (vs : List Word) (out : List Nat) :
    decodeRefLoop (encodeSeq vs) 0 false out = .ok (out ++ vs.map BitVec.toNat) := by
  induction vs generalizing out with
  | nil => simp [encodeSeq, decodeRefLoop]
  | cons v vs ih =>
    rw [encodeSeq_cons, decodeRefLoop_vlq_append, ih, List.append_assoc, List.singleton_append,
      List.map_cons]

theorem decodeRef_encodeSeq (vs : List Word) :
    decodeRef (encodeSeq vs) = .ok (vs.map BitVec.toNat) :=
  decodeRefLoop_encodeSeq vs []

/-- Settles O37: the bytes appended are `encode(vs)`, and ENC leaves the context clear. -/
theorem roundTripOfEncodeAndDecode : Obligations.RoundTripOfEncodeAndDecode := by
  refine fun vs => ⟨decodeRef_encodeSeq vs, fun s hs => ?_⟩
  refine ⟨_, _, runAll_encodeCommands vs s, runAll_transaction _ hs, ?_⟩
  rw [List.drop_left]
  exact transactionResult_of_ok (decodeRef_encodeSeq vs) _

/-! ### No overflow on a valid encoding -/

theorem foldl_accumulate_take_le (v : Word) (k : Nat) :
    ((vlq v).take k).foldl accumulate 0 ≤ v.toNat :=
  calc ((vlq v).take k).foldl accumulate 0
      ≤ ((vlq v).drop k).foldl accumulate (((vlq v).take k).foldl accumulate 0) :=
        le_foldl_accumulate _ _
    _ = v.toNat := by rw [← List.foldl_append, List.take_append_drop, foldl_accumulate_vlq]

/-- A proper prefix leaves the block in a value of at most v; the whole of VLQ(v) completes v. -/
theorem runAll_decCommands_take_vlq (v : Word) (k : Nat) {s : State} (hs : ContextClear s) :
    ∃ t, runAll (decCommands ((vlq v).take k)) s = .next t ∧ t.decOvf = false ∧
      t.decErr = false := by
  have ⟨_, _, _, herr, _⟩ := hs
  obtain ⟨front, last, hv, hf, hl, hlast⟩ := vlq_eq_append_last v
  have hle := (foldl_accumulate_take_le v k).trans (toNat_le_maxInteger v)
  rw [hv] at hle ⊢
  by_cases hk : k ≤ front.length
  · rw [List.take_append_of_le_length hk] at hle ⊢
    have hprefix : ∀ b ∈ front.take k, cont b = true := fun b hb => hf b (List.mem_of_mem_take hb)
    exact ⟨_, runAll_decCommands_of_clear hprefix hs, decide_eq_false hle.not_gt, herr⟩
  · have hmax := hlast ▸ toNat_le_maxInteger v
    rw [List.take_of_length_le (by rw [List.length_append, List.length_singleton]; omega),
      runAll_decCommands_append_of_value_start hs.withValue_zero hf herr last,
      exec_dec_withValue_of_complete herr hl hmax]
    exact ⟨_, rfl, rfl, herr⟩

/-- Settles O42: on a prefix of VLQ(v) the accumulator is at most v. -/
theorem validEncodingsNeverOverflow : Obligations.ValidEncodingsNeverOverflow := by
  refine ⟨fun s hs => ⟨_, _, _, _, runAll_decCommands_of_clear (by decide) hs, rfl,
    runAll_decCommands_of_clear (by decide) hs, rfl,
    runAll_decCommands_of_clear (by decide) hs, rfl,
    runAll_decCommands_of_clear (by decide) hs, rfl, ?_⟩,
    fun v k s hs => runAll_decCommands_take_vlq v k hs⟩
  rw [withValue_decAcc]
  decide

end Sys2Proof.Machine
end

section
/-! PROOFS. 60_exceptions.md section 7: between commands the block is idle. -/

namespace Sys2Proof.Machine

/-- Settles O9, by induction on the number of steps: an idle step leaves the block idle. -/
theorem idleStepKeepsState : Obligations.IdleStepKeepsState := by
  intro s n h
  induction n with
  | zero => rfl
  | succ n ih => rw [run_succ (step_idle h), ih]

end Sys2Proof.Machine
end

section
/-! PROOFS. 70_reset_and_hazards.md: the reset values, the RST step, a reset in the middle of a
transaction, and that every step completes. -/

namespace Sys2Proof.Machine

/-! ### Reset -/

theorem readReg_reset (idx : BitVec 3) : readReg idx State.reset = 0#32 := by
  decide +revert

/-- Settles O1: the elements are those of `State.reset`, and the port shows each as 0. -/
theorem resetStateHoldsResetValues : Obligations.ResetStateHoldsResetValues :=
  ⟨rfl, rfl, rfl, rfl, rfl, rfl, rfl, rfl, rfl, rfl, readReg_reset⟩

theorem step_reset {s : State} {rest : List HostInput} (h : s.input = .reset :: rest) :
    step s = .next (resetBlock { s with input := rest }) :=
  step_cons h

/-- Settles O2: the step is `resetBlock`, written out element by element. -/
theorem resetStepWritesEveryElement : Obligations.ResetStepWritesEveryElement :=
  fun _ _ h => step_reset h

/-! ### A reset in the middle of a transaction -/

theorem runAll_append_reset {xs : List HostInput} {s u : State} (h : runAll xs s = .next u) :
    runAll (xs ++ [.reset]) s = .next (resetBlock u) :=
  (runAll_append h _).trans (runAll_cons (t := resetBlock u) rfl [])

/-- The words a transaction has emitted, and its count of them, before it ends: a DEND would keep the
words and report the count. -/
theorem decOut_decNval_of_runAll_decCommands {bs : List Byte} {s u : State} (hs : ContextClear s)
    (hu : runAll (decCommands bs) s = .next u) :
    u.decOut = s.decOut ++ emittedWords 0 bs ∧
      u.decNval = BitVec.ofNat 32 (emittedWords 0 bs).length := by
  have hdend : clearContext (reportTransaction u) = afterTransaction bs s :=
    Host.Outcome.next.inj ((runAll_decodeTransaction hu).symm.trans (runAll_transaction bs hs))
  exact ⟨congrArg State.decOut hdend, congrArg State.dendNval hdend⟩

theorem keptAtReset_of_append {s : State} {kept ws : List Word} (hout : s.decOut = kept ++ ws)
    (hcount : s.decNval.toNat = ws.length) : keptAtReset s = kept := by
  rw [keptAtReset, hout, hcount, List.length_append, Nat.add_sub_cancel, List.take_left]

/-- At most one word a byte, so below 2^32 bytes DEC_NVAL counts the words without wrapping. -/
theorem keptAtReset_of_runAll_decCommands {bs : List Byte} {s u : State} (hs : ContextClear s)
    (hlen : bs.length < 2 ^ 32) (hu : runAll (decCommands bs) s = .next u) :
    keptAtReset u = s.decOut := by
  obtain ⟨hout, hnval⟩ := decOut_decNval_of_runAll_decCommands hs hu
  have hwords := (emittedWords_length_le 0 bs).trans_lt hlen
  refine keptAtReset_of_append hout ?_
  rw [hnval, BitVec.toNat_ofNat, Nat.mod_eq_of_lt hwords]

/-- Settles O3: RST is one more input after the DECs, and it leaves DEC_OUT as they did. -/
theorem resetCutsTransactionWithoutResult : Obligations.ResetCutsTransactionWithoutResult := by
  intro bs s hs hlen
  obtain ⟨u, hu, _⟩ := runAll_next (decCommands bs) s
  exact ⟨u, resetBlock u, hu, runAll_append_reset hu, rfl, rfl, contextClear_resetBlock u, rfl,
    keptAtReset_of_runAll_decCommands hs hlen hu⟩

/-! ### Every step completes -/

theorem step_next (s : State) : ∃ t, step s = .next t ∧ t.input = s.input.tail := by
  cases hin : s.input with
  | nil => exact ⟨s, step_idle hin, hin⟩
  | cons x rest =>
    obtain ⟨t, ht, hrest, _⟩ := runInput_next x { s with input := rest }
    exact ⟨t, (step_cons hin).trans ht, hrest⟩

theorem run_next (n : Nat) (s : State) : ∃ t, run n s = .next t ∧ t.input = s.input.drop n := by
  induction n generalizing s with
  | zero => exact ⟨s, rfl, rfl⟩
  | succ n ih =>
    obtain ⟨t, ht, htail⟩ := step_next s
    obtain ⟨u, hu, hdrop⟩ := ih t
    exact ⟨u, (run_succ ht n).trans hu, by rw [hdrop, htail, List.drop_tail]⟩

/-- Settles O10: one step by what its input does, a run by induction on its length. -/
theorem everyStepCompletes : Obligations.EveryStepCompletes :=
  ⟨step_next, run_next⟩

end Sys2Proof.Machine
end
